-- ==== Sys2Proof/Word.lean ====
section
/-! DEFINITION. The word types of chip8-interpreter CORE (spec/00_scope.md R5, R6): all values are unsigned. -/

namespace Sys2Proof

/-- A byte of main memory and a general register: XLEN = 8 bits (R5). -/
abbrev Byte := BitVec 8

/-- An instruction word, the index register and a call-stack entry: 16 bits (R5: ILEN, PCLEN). -/
abbrev Word := BitVec 16

/-- The address field `nnn` of an instruction: 12 bits (spec/30_encoding.md R82). -/
abbrev Addr12 := BitVec 12

/-- The number of a general register, `x` or `y`: 0 to 15, so never out of range (spec/10_state.md R20). -/
abbrev Reg := Fin 16

/-- A 4-bit count, `n` of DRW and `x` of ST and LDM: 0 to 15 (spec/30_encoding.md R82). -/
abbrev Count := Fin 16

end Sys2Proof
end

