-- ==== Sys2Proof/Syntax.lean ====
section
/-! DEFINITION. The instructions: one constructor per row of spec/opcode_table.json (spec/30_encoding.md R84). -/

namespace Sys2Proof

/-- The 28 decoded instructions and NOP, in the order of the table of R84. -/
inductive Instr where
  /-- CLS, 00E0. -/
  | cls
  /-- RET, 00EE. -/
  | ret
  /-- JP nnn, 1nnn. -/
  | jp (nnn : Addr12)
  /-- CALL nnn, 2nnn. -/
  | call (nnn : Addr12)
  /-- SE Vx,kk, 3xkk. -/
  | seImm (x : Reg) (kk : Byte)
  /-- SNE Vx,kk, 4xkk. -/
  | sneImm (x : Reg) (kk : Byte)
  /-- SE Vx,Vy, 5xy_; the low nibble is ignored (R85) and not kept. -/
  | seReg (x y : Reg)
  /-- LD Vx,kk, 6xkk. -/
  | ldImm (x : Reg) (kk : Byte)
  /-- ADD Vx,kk, 7xkk. -/
  | addImm (x : Reg) (kk : Byte)
  /-- OR Vx,Vy, 8xy1. -/
  | orReg (x y : Reg)
  /-- AND Vx,Vy, 8xy2. -/
  | andReg (x y : Reg)
  /-- XOR Vx,Vy, 8xy3. -/
  | xorReg (x y : Reg)
  /-- ADD Vx,Vy, 8xy4. -/
  | addReg (x y : Reg)
  /-- SUB Vx,Vy, 8xy5. -/
  | subReg (x y : Reg)
  /-- SHR Vx,Vy, 8xy6. -/
  | shrReg (x y : Reg)
  /-- SHL Vx,Vy, 8xyE. -/
  | shlReg (x y : Reg)
  /-- SNE Vx,Vy, 9xy_; the low nibble is ignored (R85) and not kept. -/
  | sneReg (x y : Reg)
  /-- LD I,nnn, Annn. -/
  | ldI (nnn : Addr12)
  /-- JP V0,nnn, Bnnn. -/
  | jpV0 (nnn : Addr12)
  /-- RND Vx,kk, Cxkk. -/
  | rnd (x : Reg) (kk : Byte)
  /-- DRW Vx,Vy,n, Dxyn. -/
  | drw (x y : Reg) (n : Count)
  /-- SKP Vx, Ex9E. -/
  | skp (x : Reg)
  /-- SKNP Vx, ExA1. -/
  | sknp (x : Reg)
  /-- ADD I,Vx, Fx1E. -/
  | addI (x : Reg)
  /-- LD F,Vx, Fx29. -/
  | ldF (x : Reg)
  /-- BCD Vx, Fx33. -/
  | bcd (x : Reg)
  /-- ST x, Fx55: x is a count of registers (spec/43_index_memory.md R154). -/
  | st (x : Count)
  /-- LDM x, Fx65: x is a count of registers (R155). -/
  | ldm (x : Count)
  /-- NOP: any word that matches no row above (R86). The word is kept so that nothing of the encoding is lost
  (DESIGN CHOICE, log entry 3); the meaning does not read it (spec/40_cycle.md R106). -/
  | nop (word : Word)
  deriving DecidableEq, Repr

end Sys2Proof
end

