-- ==== Sys2Proof/WellFormed.lean ====
section
/-! DEFINITION. Which terms of Instr are instructions of the hardware: the word a NOP carries is in the NOP space.
Every other operand is in range by its type (spec/10_state.md R20; spec/30_encoding.md R82). -/

namespace Sys2Proof

/-- The NOP space, as spec/30_encoding.md R86 lists it: by family, the sub-keys that no row decodes. -/
def nopSpace (w : Word) : Bool :=
  let family := w.toNat / 0x1000
  let low4 := w.toNat % 0x10
  let low8 := w.toNat % 0x100
  (family == 0x0 && w.toNat != 0x00E0 && w.toNat != 0x00EE)
    || (family == 0x8 && [0, 7, 8, 9, 0xA, 0xB, 0xC, 0xD, 0xF].contains low4)
    || (family == 0xE && low8 != 0x9E && low8 != 0xA1)
    || (family == 0xF && low8 != 0x1E && low8 != 0x29 && low8 != 0x33 && low8 != 0x55 && low8 != 0x65)

/-- A NOP carries a word of the NOP space; nothing else needs a check. -/
def WellFormed (i : Instr) : Bool :=
  match i with
  | .nop w => nopSpace w
  | .cls | .ret | .jp _ | .call _ | .seImm _ _ | .sneImm _ _ | .seReg _ _ | .ldImm _ _ | .addImm _ _
  | .orReg _ _ | .andReg _ _ | .xorReg _ _ | .addReg _ _ | .subReg _ _ | .shrReg _ _ | .shlReg _ _
  | .sneReg _ _ | .ldI _ | .jpV0 _ | .rnd _ _ | .drw _ _ _ | .skp _ | .sknp _ | .addI _ | .ldF _
  | .bcd _ | .st _ | .ldm _ => true

end Sys2Proof
end

