-- ==== Sys2Proof/Decode.lean ====
section
/-! DEFINITION. The decoder (spec/30_encoding.md R82, R83), the encoder (R81, R84, R88) and the opcode table as rows
of mask and match (R84). -/

namespace Sys2Proof

/-! ### Fields of an instruction word (R82) -/

/-- `f = w[15:12]`, the opcode family. -/
def fieldF (w : Word) : BitVec 4 := w.extractLsb 15 12

/-- `x = w[11:8]`. -/
def fieldX (w : Word) : Fin 16 := (w.extractLsb 11 8).toFin

/-- `y = w[7:4]`. -/
def fieldY (w : Word) : Fin 16 := (w.extractLsb 7 4).toFin

/-- `n = w[3:0]` as a count. -/
def fieldN (w : Word) : Fin 16 := (w.extractLsb 3 0).toFin

/-- `s = w[3:0]`, the sub-key of family 8. -/
def fieldS (w : Word) : BitVec 4 := w.extractLsb 3 0

/-- `kk = w[7:0]`; also the sub-key `ss` of families E and F. -/
def fieldKK (w : Word) : Byte := w.extractLsb 7 0

/-- `nnn = w[11:0]`. -/
def fieldNNN (w : Word) : Addr12 := w.extractLsb 11 0

/-! ### Decoding (R83) -/

/-- Family 0x8 selects on `s`. -/
def decodeFamily8 (w : Word) : Instr :=
  match fieldS w with
  | 0x1#4 => .orReg (fieldX w) (fieldY w)
  | 0x2#4 => .andReg (fieldX w) (fieldY w)
  | 0x3#4 => .xorReg (fieldX w) (fieldY w)
  | 0x4#4 => .addReg (fieldX w) (fieldY w)
  | 0x5#4 => .subReg (fieldX w) (fieldY w)
  | 0x6#4 => .shrReg (fieldX w) (fieldY w)
  | 0xE#4 => .shlReg (fieldX w) (fieldY w)
  | _ => .nop w

/-- Family 0xE selects on `ss`. -/
def decodeFamilyE (w : Word) : Instr :=
  match fieldKK w with
  | 0x9E#8 => .skp (fieldX w)
  | 0xA1#8 => .sknp (fieldX w)
  | _ => .nop w

/-- Family 0xF selects on `ss`. -/
def decodeFamilyF (w : Word) : Instr :=
  match fieldKK w with
  | 0x1E#8 => .addI (fieldX w)
  | 0x29#8 => .ldF (fieldX w)
  | 0x33#8 => .bcd (fieldX w)
  | 0x55#8 => .st (fieldX w)
  | 0x65#8 => .ldm (fieldX w)
  | _ => .nop w

/-- Step 2 of R83: the family selects; the last case is family 0x0. -/
def decodeFamily (w : Word) : Instr :=
  match fieldF w with
  | 0x1#4 => .jp (fieldNNN w)
  | 0x2#4 => .call (fieldNNN w)
  | 0x3#4 => .seImm (fieldX w) (fieldKK w)
  | 0x4#4 => .sneImm (fieldX w) (fieldKK w)
  | 0x5#4 => .seReg (fieldX w) (fieldY w)
  | 0x6#4 => .ldImm (fieldX w) (fieldKK w)
  | 0x7#4 => .addImm (fieldX w) (fieldKK w)
  | 0x8#4 => decodeFamily8 w
  | 0x9#4 => .sneReg (fieldX w) (fieldY w)
  | 0xA#4 => .ldI (fieldNNN w)
  | 0xB#4 => .jpV0 (fieldNNN w)
  | 0xC#4 => .rnd (fieldX w) (fieldKK w)
  | 0xD#4 => .drw (fieldX w) (fieldY w) (fieldN w)
  | 0xE#4 => decodeFamilyE w
  | 0xF#4 => decodeFamilyF w
  | _ => .nop w

/-- `Decode(w)` of spec/40_cycle.md R102: total on all 65536 words (R83, R87). Step 1: the two whole words of
family 0. -/
def decodeWord (w : Word) : Instr :=
  if w = 0x00E0#16 then .cls
  else if w = 0x00EE#16 then .ret
  else decodeFamily w

/-- Why bytes are no instruction: the one reason is that there are fewer than two of them (R80, R87). -/
inductive DecodeError where
  /-- DESIGN CHOICE (log entry 8): fewer than two bytes are left. Safe: nothing is decoded. -/
  | tooFewBytes
  deriving DecidableEq, Repr

/-- The big-endian word of two bytes, the first the more significant (spec/20_memory.md R52). -/
def wordOfBytes (hi lo : Byte) : Word := hi ++ lo

/-- Decode the instruction at the front of a list of bytes; answer it with the bytes after it. -/
def decode (bytes : List Byte) : Except DecodeError (Instr × List Byte) :=
  match bytes with
  | hi :: lo :: rest => .ok (decodeWord (wordOfBytes hi lo), rest)
  | _ => .error .tooFewBytes

/-! ### Encoding (R81, R84) -/

/-- A register number or a count as a field of four bits. -/
def nibble (x : Fin 16) : BitVec 4 := BitVec.ofFin x

/-- Format A: family and address. -/
def formatA (f : BitVec 4) (nnn : Addr12) : Word := f ++ nnn

/-- Format K, and format X with the sub-key in place of the immediate: family, register, eight bits. -/
def formatK (f : BitVec 4) (x : Fin 16) (kk : Byte) : Word := f ++ nibble x ++ kk

/-- Formats R and D: family, two registers, four bits. -/
def formatR (f : BitVec 4) (x y : Fin 16) (s : BitVec 4) : Word := f ++ nibble x ++ nibble y ++ s

/-- The word of an instruction; SE Vx,Vy and SNE Vx,Vy are emitted with a low nibble of 0 (R85, R88). -/
def encode (i : Instr) : Word :=
  match i with
  | .cls => 0x00E0#16
  | .ret => 0x00EE#16
  | .jp nnn => formatA 0x1#4 nnn
  | .call nnn => formatA 0x2#4 nnn
  | .seImm x kk => formatK 0x3#4 x kk
  | .sneImm x kk => formatK 0x4#4 x kk
  | .seReg x y => formatR 0x5#4 x y 0x0#4
  | .ldImm x kk => formatK 0x6#4 x kk
  | .addImm x kk => formatK 0x7#4 x kk
  | .orReg x y => formatR 0x8#4 x y 0x1#4
  | .andReg x y => formatR 0x8#4 x y 0x2#4
  | .xorReg x y => formatR 0x8#4 x y 0x3#4
  | .addReg x y => formatR 0x8#4 x y 0x4#4
  | .subReg x y => formatR 0x8#4 x y 0x5#4
  | .shrReg x y => formatR 0x8#4 x y 0x6#4
  | .shlReg x y => formatR 0x8#4 x y 0xE#4
  | .sneReg x y => formatR 0x9#4 x y 0x0#4
  | .ldI nnn => formatA 0xA#4 nnn
  | .jpV0 nnn => formatA 0xB#4 nnn
  | .rnd x kk => formatK 0xC#4 x kk
  | .drw x y n => formatR 0xD#4 x y (nibble n)
  | .skp x => formatK 0xE#4 x 0x9E#8
  | .sknp x => formatK 0xE#4 x 0xA1#8
  | .addI x => formatK 0xF#4 x 0x1E#8
  | .ldF x => formatK 0xF#4 x 0x29#8
  | .bcd x => formatK 0xF#4 x 0x33#8
  | .st x => formatK 0xF#4 x 0x55#8
  | .ldm x => formatK 0xF#4 x 0x65#8
  | .nop w => w

/-- The more significant byte of a word. -/
def highByte (w : Word) : Byte := w.extractLsb 15 8

/-- The less significant byte of a word. -/
def lowByte (w : Word) : Byte := w.extractLsb 7 0

/-- The two bytes of an instruction as they lie in memory, the more significant first (R80). -/
def encodeBytes (i : Instr) : List Byte := [highByte (encode i), lowByte (encode i)]

/-! ### The opcode table of R84, as mask and match -/

/-- The mask and match of each decoded row of R84, rows 1 to 28 in order. -/
def opcodeTable : List (Word × Word) :=
  [(0xFFFF, 0x00E0), (0xFFFF, 0x00EE), (0xF000, 0x1000), (0xF000, 0x2000), (0xF000, 0x3000), (0xF000, 0x4000),
   (0xF000, 0x5000), (0xF000, 0x6000), (0xF000, 0x7000), (0xF00F, 0x8001), (0xF00F, 0x8002), (0xF00F, 0x8003),
   (0xF00F, 0x8004), (0xF00F, 0x8005), (0xF00F, 0x8006), (0xF00F, 0x800E)]
  ++ [(0xF000, 0x9000), (0xF000, 0xA000), (0xF000, 0xB000), (0xF000, 0xC000), (0xF000, 0xD000), (0xF0FF, 0xE09E),
   (0xF0FF, 0xE0A1), (0xF0FF, 0xF01E), (0xF0FF, 0xF029), (0xF0FF, 0xF033), (0xF0FF, 0xF055), (0xF0FF, 0xF065)]

/-- Whether a row of the table selects a word: `w & mask = match` (R84). -/
def rowSelects (row : Word × Word) (w : Word) : Bool := w &&& row.1 == row.2

/-- The place in the table of the first row that selects a word, counted from 0; 28 (the NOP row) if none does. -/
def tableRow (w : Word) : Nat := opcodeTable.findIdx (fun row => rowSelects row w)

/-- The place of an instruction's row in the table of R84, counted from 0. -/
def rowOf (i : Instr) : Nat :=
  match i with
  | .cls => 0 | .ret => 1 | .jp _ => 2 | .call _ => 3 | .seImm _ _ => 4 | .sneImm _ _ => 5
  | .seReg _ _ => 6 | .ldImm _ _ => 7 | .addImm _ _ => 8 | .orReg _ _ => 9 | .andReg _ _ => 10
  | .xorReg _ _ => 11 | .addReg _ _ => 12 | .subReg _ _ => 13 | .shrReg _ _ => 14 | .shlReg _ _ => 15
  | .sneReg _ _ => 16 | .ldI _ => 17 | .jpV0 _ => 18 | .rnd _ _ => 19 | .drw _ _ _ => 20
  | .skp _ => 21 | .sknp _ => 22 | .addI _ => 23 | .ldF _ => 24 | .bcd _ => 25 | .st _ => 26
  | .ldm _ => 27 | .nop _ => 28

/-! ### The host's question -/

/-- The instruction the decoder reads from the bits `w` of an opcode-table row of `nbits` bits: one 16-bit word, laid
out high byte first. -/
def decodeTableWord (nbits w : Nat) : Option Instr :=
  let word : Word := BitVec.ofNat 16 (w % 2 ^ nbits)
  match decode [highByte word, lowByte word] with
  | .ok (i, _) => some i
  | .error _ => none

end Sys2Proof
end

