-- ==== Sys2Proof/Config.lean ====
section
/-! DEFINITION. The parameters of the hardware (spec/00_scope.md R5) and its one free value, the random byte. -/

namespace Sys2Proof.Config

/-- MEM_BYTES: addresses 0 to 1790 exist, no other (R5; spec/20_memory.md R51). -/
abbrev memBytes : Nat := 1791

/-- SP_MAX: the largest legal depth cursor (R5). -/
abbrev spMax : Fin 16 := 15

/-- PC_STEP: what an instruction that is not a control transfer adds to the pc (R5). -/
abbrev pcStep : Word := 2#16

/-- CODE_ADDR_SCALE: the factor between the field `nnn` of JP and CALL and the byte address reached
(R5; spec/92_eei_decisions.md D1). -/
abbrev codeAddrScale : Nat := 1

/-- NKEYS: the number of key flags (R5). -/
abbrev nKeys : Nat := 16

/-- FB_W: the number of frame-buffer columns (R5). -/
abbrev fbW : Nat := 64

/-- FB_H: the number of frame-buffer rows (R5). -/
abbrev fbH : Nat := 32

/-- What a byte that nothing has written reads as: the reset contents of memory (spec/10_state.md R41). -/
abbrev unlisted : Byte := 0#8

/-- FREE VALUE (log entry 1). The sequence of bytes the host's random source supplies: the byte of the k-th draw
(spec/10_state.md R38; the parameter `draws` of spec/92_eei_decisions.md D18). No body: "a free 8-bit input under
no law". -/
opaque draws : Nat → Byte

end Sys2Proof.Config
end

