-- ==== Sys2Proof/Machine/State.lean ====
section
/-! DEFINITION. The machine's state (spec/10_state.md, the tuple S and R20 to R41), its faults (spec/60_exceptions.md
R180) and its value at reset (R41). -/

namespace Sys2Proof.Machine

/-- Main memory: the bytes that differ from their reset value 0x00, by address, addresses strictly rising
(spec/20_memory.md R51). -/
abbrev Memory := List Host.Cell

/-- The frame buffer, `fb[y][x]` with row `y` in 0..31 and column `x` in 0..63; `true` is lit (spec/10_state.md R33). -/
abbrev FrameBuffer := Vector (Vector Bool 64) 32

/-- The whole state: the tuple S of spec/10_state.md (R40 closes it) and, last, the model's own position in the
random source's sequence. -/
structure State where
  /-- Main memory, 1791 bytes (spec/20_memory.md R51). -/
  mem : Memory
  /-- The general registers V0 to VF; VF doubles as the flag register (R20, R22). -/
  V : Vector Byte 16
  /-- The index register (R23). -/
  I : Word
  /-- The call stack; the entry at `sp` is the program counter (R24, R26, R30). -/
  stack : Vector Word 16
  /-- The depth cursor, 0 to 15 (R25). -/
  sp : Fin 16
  /-- The frame buffer (R33). -/
  fb : FrameBuffer
  /-- The key flags; `true` is down (R36). -/
  key : Vector Bool 16
  /-- THE MODEL'S OWN (log entry 1): how many draws have been taken from the random source, which is not part of the
  machine's state S (R38). -/
  drawIndex : Nat
  deriving DecidableEq, Repr

/-- What a step reports when it raises a fault: the kind and its info value (R180). A faulting step writes nothing
(R184). -/
inductive Fault where
  /-- Code 1, raised by every step before decode when the two bytes at the pc do not both exist (R181). Safe: it is the
  spec's own fault. -/
  | fetchOutOfRange (pc0 : Word)
  /-- Code 2, raised by DRW and LDM; the lowest non-existent address they would touch (R182). Safe: it is the spec's
  own fault. -/
  | dataReadOutOfRange (addr : Nat)
  /-- Code 3, raised by BCD and ST; the lowest non-existent address they would touch (R182). Safe: it is the spec's own
  fault. -/
  | dataWriteOutOfRange (addr : Nat)
  /-- Code 4, raised by CALL at `sp = 15`; the address of the CALL (R183). Safe: it is the spec's own fault. -/
  | stackOverflow (pc0 : Word)
  /-- Code 5, raised by RET at `sp = 0`; the address of the RET (R183). Safe: it is the spec's own fault. -/
  | stackUnderflow (pc0 : Word)
  /-- Code 6, raised by SKP and SKNP when `V[x]` is 16 or more; the value of `V[x]` (R185). Safe: it is the spec's own
  fault. -/
  | keyIndexOutOfRange (k : Byte)
  deriving DecidableEq, Repr

/-- Why the model has no meaning for an instruction. -/
inductive Refusal where
  /-- Raised by exec for an instruction that has no meaning yet; no instruction of this model is so. Safe: nothing is
  proved of it. -/
  | notModelled (mnemonic : String)
  deriving DecidableEq, Repr

/-- A frame buffer with every pixel false. -/
def FrameBuffer.blank : FrameBuffer := Vector.replicate 32 (Vector.replicate 64 false)

/-- The state after reset: "all-zero/all-false/zero-length" (R41). The position in the random source's sequence is the
model's own, 0 by DESIGN CHOICE (log entry 1). -/
def State.reset : State where
  mem := []
  V := Vector.replicate 16 0#8
  I := 0#16
  stack := Vector.replicate 16 0#16
  sp := 0
  fb := FrameBuffer.blank
  key := Vector.replicate 16 false
  drawIndex := 0

end Sys2Proof.Machine
end

