-- ==== Sys2Proof/Machine/Ops.lean ====
section
/-! DEFINITION. The named operations over memory, registers, stack, frame buffer, keys and the random source
(spec/00_scope.md R7), the fault delivery (spec/60_exceptions.md R184) and the fetch (spec/40_cycle.md R101). -/

namespace Sys2Proof.Machine

/-- The outcome of a step or of a meaning. -/
abbrev Result := Host.Outcome State Fault Refusal

/-! ### Main memory -/

/-- The canonical form: addresses strictly rising, every listed address exists, no listed byte is the one an unlisted
address reads as. -/
abbrev Memory.wf (m : Memory) : Prop :=
  m.Pairwise (fun c d => c.1 < d.1) ∧ ∀ c ∈ m, c.1 < Config.memBytes ∧ c.2 ≠ Config.unlisted

/-- The byte at an address (R7, `MemRead(a, 1)`); an unlisted address holds its reset value (spec/10_state.md R41). -/
def Memory.read (m : Memory) (a : Nat) : Byte :=
  match m with
  | [] => Config.unlisted
  | (k, c) :: rest => if k = a then c else Memory.read rest a

/-- The cell of address `a` with byte `b` in front of `m`, or no cell where `b` is what an unlisted address reads as. -/
def Memory.cons (a : Nat) (b : Byte) (m : Memory) : Memory :=
  if b = Config.unlisted then m else (a, b) :: m

/-- Write one byte (R7, `MemWrite(a, 1, b)`), keeping the canonical form. -/
def Memory.write (m : Memory) (a : Nat) (b : Byte) : Memory :=
  match m with
  | [] => Memory.cons a b []
  | (k, c) :: rest =>
    if k < a then (k, c) :: Memory.write rest a b
    else if k = a then Memory.cons a b rest
    else Memory.cons a b ((k, c) :: rest)

/-- The `n` bytes at `a .. a+n-1`, in ascending order (spec/20_memory.md R53). -/
def Memory.readBytes (m : Memory) (a n : Nat) : List Byte :=
  match n with
  | 0 => []
  | n + 1 => m.read a :: Memory.readBytes m (a + 1) n

/-- Write bytes at `a, a+1, ...`, in ascending order (spec/20_memory.md R53). -/
def Memory.writeBytes (m : Memory) (a : Nat) (bytes : List Byte) : Memory :=
  match bytes with
  | [] => m
  | b :: rest => Memory.writeBytes (m.write a b) (a + 1) rest

/-- The big-endian word at `a` and `a+1` (R7, `MemRead(a, 2)`; spec/20_memory.md R52). -/
def Memory.readWord (m : Memory) (a : Nat) : Word := wordOfBytes (m.read a) (m.read (a + 1))

/-- Write a word at `a` and `a+1`, the more significant byte at `a` (R7, `MemWrite(a, 2, w)`). -/
def Memory.writeWord (m : Memory) (a : Nat) (w : Word) : Memory := m.writeBytes a [highByte w, lowByte w]

/-- The state with another main memory. -/
def State.setMem (s : State) (m : Memory) : State := { s with mem := m }

/-! ### Registers -/

/-- Read general register `x` (R7, `V[x]`). -/
def State.reg (s : State) (x : Reg) : Byte := s.V[x]

/-- Write general register `x`; VF is an ordinary register (spec/10_state.md R20). -/
def State.setReg (s : State) (x : Reg) (b : Byte) : State := { s with V := s.V.set x b }

/-- Write VF, which is V[15] (spec/10_state.md R22). -/
def State.setFlag (s : State) (b : Byte) : State := s.setReg 15 b

/-- Put bytes into the registers `V[k], V[k+1], ...`, in ascending order. -/
def loadRegs (v : Vector Byte 16) (k : Nat) (bytes : List Byte) : Vector Byte 16 :=
  match bytes with
  | [] => v
  | b :: rest => loadRegs (v.setIfInBounds k b) (k + 1) rest

/-- The state with another register file. -/
def State.setV (s : State) (v : Vector Byte 16) : State := { s with V := v }

/-- Write the index register (R7, `I <- v`). -/
def State.setI (s : State) (v : Word) : State := { s with I := v }

/-! ### Call stack and program counter -/

/-- Call-stack entry `k` (R7, `stack[k]`). -/
def State.entry (s : State) (k : Fin 16) : Word := s.stack[k]

/-- The program counter is the entry at `sp` (spec/10_state.md R30). -/
def State.pc (s : State) : Word := s.entry s.sp

/-- Write the program counter: the entry at the current `sp` (R7, `pc <- t`). -/
def State.setPc (s : State) (t : Word) : State := { s with stack := s.stack.set s.sp t }

/-- Write the depth cursor. -/
def State.setSp (s : State) (k : Fin 16) : State := { s with sp := k }

/-- The end of an instruction that is not a control transfer: `pc <- pc0 + 2` (spec/40_cycle.md R104). -/
def State.advance (s : State) : State := s.setPc (s.pc + Config.pcStep)

/-- The end of a skip: the advance, and one extra step where the condition holds (spec/40_cycle.md R105). -/
def State.skipIf (s : State) (cond : Bool) : State :=
  if cond then s.setPc (s.pc + Config.pcStep + Config.pcStep) else s.advance

/-! ### Frame buffer -/

/-- The pixel at row `y`, column `x` (R7, `fb[y][x]`). -/
def FrameBuffer.pixel (fb : FrameBuffer) (y : Fin 32) (x : Fin 64) : Bool := fb[y][x]

/-- The state with another frame buffer. -/
def State.setFb (s : State) (fb : FrameBuffer) : State := { s with fb := fb }

/-- Exclusive-or one bit into the pixel at row `y`, column `x`; a place outside the grid is discarded
(spec/44_display.md R171). -/
def FrameBuffer.xorPixel (fb : FrameBuffer) (y x : Nat) (bit : Bool) : FrameBuffer :=
  if h : y < 32 ∧ x < 64 then
    have hy : y < 32 := h.1
    have hx : x < 64 := h.2
    fb.set y ((fb[y]).set x ((fb[y])[x] ^^ bit))
  else fb

/-- One sprite row: the 8 bits of `b` at columns `x0 .. x0+7` of row `y`, most significant bit first
(spec/44_display.md R171). -/
def FrameBuffer.blitRow (fb : FrameBuffer) (y x0 : Nat) (b : Byte) : FrameBuffer :=
  (List.range 8).foldl (fun fb j => fb.xorPixel y (x0 + j) (b.getLsbD (7 - j))) fb

/-- The sprite rows of `bytes` at rows `y0, y0+1, ...` (spec/44_display.md R171). -/
def FrameBuffer.blit (fb : FrameBuffer) (y0 x0 : Nat) (bytes : List Byte) : FrameBuffer :=
  match bytes with
  | [] => fb
  | b :: rest => FrameBuffer.blit (fb.blitRow y0 x0 b) (y0 + 1) x0 rest

/-! ### Keys and the random source -/

/-- Key flag `k` (R7, `key[k]`). -/
def State.keyDown (s : State) (k : Fin 16) : Bool := s.key[k]

/-- Write key flag `k`: the host's write surface (spec/10_state.md R37). No instruction does so (R36). -/
def State.setKey (s : State) (k : Fin 16) (down : Bool) : State := { s with key := s.key.set k down }

/-- The byte the next draw gives (R7, `Draw()`): a free value (log entry 1). -/
def State.drawByte (s : State) : Byte := Config.draws s.drawIndex

/-- The state after one draw has been taken (spec/10_state.md R38). -/
def State.drawn (s : State) : State := { s with drawIndex := s.drawIndex + 1 }

/-! ### Faults -/

/-- `raise` (R7): this machine's trap entry. The step ends with the named fault and its info value and writes nothing;
there is no handler, nothing is saved, and there is no return from it (spec/60_exceptions.md R184, R190). -/
def raise (f : Fault) : Result := .fault f

/-- The code of a fault kind (spec/60_exceptions.md R180). -/
def Fault.code (f : Fault) : Nat :=
  match f with
  | .fetchOutOfRange _ => 1
  | .dataReadOutOfRange _ => 2
  | .dataWriteOutOfRange _ => 3
  | .stackOverflow _ => 4
  | .stackUnderflow _ => 5
  | .keyIndexOutOfRange _ => 6

/-- The info value of a fault (spec/60_exceptions.md R180). -/
def Fault.info (f : Fault) : Nat :=
  match f with
  | .fetchOutOfRange pc0 => pc0.toNat
  | .dataReadOutOfRange a => a
  | .dataWriteOutOfRange a => a
  | .stackOverflow pc0 => pc0.toNat
  | .stackUnderflow pc0 => pc0.toNat
  | .keyIndexOutOfRange k => k.toNat

/-! ### Fetch -/

/-- Fetch (spec/40_cycle.md R101): the bounds check on the pc is the only check; then the big-endian word there. -/
def State.fetch (s : State) : Except Fault Word :=
  if s.pc.toNat + 1 < Config.memBytes then .ok (s.mem.readWord s.pc.toNat)
  else .error (.fetchOutOfRange s.pc)

/-- Where the next fetch reads, with the pc moved to 0 first if nothing can be fetched at it. -/
def State.fetchable (s : State) : State :=
  if s.pc.toNat + 1 < Config.memBytes then s else s.setPc 0#16

/-- The state with a word stored where the next step fetches. -/
def State.placeWord (s : State) (w : Word) : State :=
  let s := s.fetchable
  s.setMem (s.mem.writeWord s.pc.toNat w)

end Sys2Proof.Machine
end

