-- ==== Sys2Proof/Machine/Operands.lean ====
section
/-! DEFINITION. The operand forms: the code target, the index-relative data range and the register list
(spec/30_encoding.md R82, spec/20_memory.md R56, spec/43_index_memory.md R156). -/

namespace Sys2Proof.Machine

/-- `zext_16(nnn)` (spec/00_scope.md R7). -/
def zext16 (nnn : Addr12) : Word := nnn.setWidth 16

/-- A byte zero-extended to 16 bits (spec/00_scope.md R7). -/
def zextByte (b : Byte) : Word := b.setWidth 16

/-- The byte address JP and CALL reach: `nnn` times CODE_ADDR_SCALE, which is 1 (spec/30_encoding.md R82). -/
def codeTarget (nnn : Addr12) : Word := BitVec.ofNat 16 (Config.codeAddrScale * nnn.toNat)

/-- The base of the one data addressing mode: the byte `i` of an access is at `I + i`, an unbounded integer
(spec/43_index_memory.md R156). -/
def State.dataBase (s : State) : Nat := s.I.toNat

/-- The bounds check of an access of `c` bytes at base `I` (spec/20_memory.md R56): the lowest non-existent address it
would touch, if there is one; with `c = 0` no check is made. -/
def State.badAddress (s : State) (c : Nat) : Option Nat :=
  if 0 < c ∧ Config.memBytes ≤ s.dataBase + c - 1 then some (max s.dataBase Config.memBytes) else none

/-- Run `k` if the `c` bytes at `I` exist; else raise DataReadOutOfRange, nothing touched (R56, spec/60_exceptions.md
R182). -/
def State.readingData (s : State) (c : Nat) (k : State) : Result :=
  match s.badAddress c with
  | some a => raise (.dataReadOutOfRange a)
  | none => .next k

/-- Run `k` if the `c` bytes at `I` exist; else raise DataWriteOutOfRange, nothing touched (R56, spec/60_exceptions.md
R182). -/
def State.writingData (s : State) (c : Nat) (k : State) : Result :=
  match s.badAddress c with
  | some a => raise (.dataWriteOutOfRange a)
  | none => .next k

/-- The bytes at `I .. I+c-1`. -/
def State.dataBytes (s : State) (c : Nat) : List Byte := s.mem.readBytes s.dataBase c

/-- The state with bytes stored at `I, I+1, ...`. -/
def State.storeData (s : State) (bytes : List Byte) : State := s.setMem (s.mem.writeBytes s.dataBase bytes)

/-- The registers `V[0] .. V[x-1]` (spec/43_index_memory.md R154). -/
def State.firstRegs (s : State) (x : Count) : List Byte := s.V.toList.take x

/-- The three decimal digits of a byte: hundreds, tens, ones (spec/43_index_memory.md R153). -/
def decimalDigits (v : Byte) : List Byte := [v / 100#8, v / 10#8 % 10#8, v % 10#8]

/-- The key number in a register, if there is such a key: 0 to 15 (spec/41_control_flow.md R118). -/
def keyIndex (b : Byte) : Option (Fin 16) :=
  if h : b.toNat < Config.nKeys then some ⟨b.toNat, h⟩ else none

end Sys2Proof.Machine
end

