-- ==== Sys2Proof/Machine/Flags.lean ====
section
/-! DEFINITION. The values VF takes (spec/10_state.md R22, spec/42_register_alu.md R135 to R138). -/

namespace Sys2Proof.Machine

/-- A flag as a byte: 0 or 1 (spec/10_state.md R22). -/
def flagByte (cond : Bool) : Byte := if cond then 1#8 else 0#8

/-- The flag of ADD Vx,Vy: the pre-update value `a` is greater than the post-update value `r` (R135). -/
def carryFlag (a r : Byte) : Byte := flagByte (decide (r.toNat < a.toNat))

/-- The flag of SUB: the pre-update value `a` is less than the post-update value `r`, a borrow (R136;
spec/90_conflicts.md C2). -/
def borrowFlag (a r : Byte) : Byte := flagByte (decide (a.toNat < r.toNat))

/-- The flag of SHR: bit 0 of the source, `V[y] & 1` (R137). -/
def shrFlag (b : Byte) : Byte := b &&& 1#8

/-- The flag of SHL: bit 7 of the source, `(V[y] >> 7) & 1` (R138). -/
def shlFlag (b : Byte) : Byte := (b >>> 7) &&& 1#8

end Sys2Proof.Machine
end

