-- ==== Sys2Proof/Machine/Alu.lean ====
section
/-! DEFINITION. Register load, arithmetic, logic, shift and random (spec/42_register_alu.md R130 to R139). Each
assignment reads the registers as the one before it left them (spec/00_scope.md R8). -/

namespace Sys2Proof.Machine

/-- LD Vx,kk (R130). -/
def execLdImm (x : Reg) (kk : Byte) (s : State) : Result := .next (s.setReg x kk).advance

/-- ADD Vx,kk (R131): no flag. -/
def execAddImm (x : Reg) (kk : Byte) (s : State) : Result := .next (s.setReg x (s.reg x + kk)).advance

/-- OR Vx,Vy (R132). -/
def execOrReg (x y : Reg) (s : State) : Result := .next (s.setReg x (s.reg x ||| s.reg y)).advance

/-- AND Vx,Vy (R133). -/
def execAndReg (x y : Reg) (s : State) : Result := .next (s.setReg x (s.reg x &&& s.reg y)).advance

/-- XOR Vx,Vy (R134). -/
def execXorReg (x y : Reg) (s : State) : Result := .next (s.setReg x (s.reg x ^^^ s.reg y)).advance

/-- ADD Vx,Vy (R135): the sum, then the carry into VF, last. -/
def execAddReg (x y : Reg) (s : State) : Result :=
  let a := s.reg x
  let r := a + s.reg y
  .next ((s.setReg x r).setFlag (carryFlag a r)).advance

/-- SUB Vx,Vy (R136): the difference, then the borrow into VF, last. -/
def execSubReg (x y : Reg) (s : State) : Result :=
  let a := s.reg x
  let r := a - s.reg y
  .next ((s.setReg x r).setFlag (borrowFlag a r)).advance

/-- SHR Vx,Vy (R137): the flag first; then Vy is read again. -/
def execShrReg (x y : Reg) (s : State) : Result :=
  let s1 := s.setFlag (shrFlag (s.reg y))
  .next (s1.setReg x (s1.reg y >>> 1)).advance

/-- SHL Vx,Vy (R138): the flag first; then Vy is read again. -/
def execShlReg (x y : Reg) (s : State) : Result :=
  let s1 := s.setFlag (shlFlag (s.reg y))
  .next (s1.setReg x (s1.reg y <<< 1)).advance

/-- RND Vx,kk (R139): one draw is taken whatever kk is. -/
def execRnd (x : Reg) (kk : Byte) (s : State) : Result :=
  .next (s.drawn.setReg x (s.drawByte &&& kk)).advance

end Sys2Proof.Machine
end

