-- ==== Sys2Proof/Machine/Control.lean ====
section
/-! DEFINITION. Control transfer and skips (spec/41_control_flow.md R110 to R119). -/

namespace Sys2Proof.Machine

/-- RET (R110): at depth 0 a fault; else uncover the caller's entry, which holds the address of the CALL, and add 2 to
it. -/
def execRet (s : State) : Result :=
  if s.sp = 0 then raise (.stackUnderflow s.pc)
  else
    let caller := s.setSp (s.sp - 1)
    .next (caller.setPc (caller.pc + Config.pcStep))

/-- JP nnn (R111): never a fault, whatever the target. -/
def execJp (nnn : Addr12) (s : State) : Result := .next (s.setPc (codeTarget nnn))

/-- CALL nnn (R112): at depth 15 a fault; else a new frame at the target, the caller's entry left at the CALL. -/
def execCall (nnn : Addr12) (s : State) : Result :=
  if s.sp = Config.spMax then raise (.stackOverflow s.pc)
  else .next ((s.setSp (s.sp + 1)).setPc (codeTarget nnn))

/-- JP V0,nnn (R117): the sum is not reduced to 12 bits. -/
def execJpV0 (nnn : Addr12) (s : State) : Result := .next (s.setPc (zextByte (s.reg 0) + zext16 nnn))

/-- SE Vx,kk (R113). -/
def execSeImm (x : Reg) (kk : Byte) (s : State) : Result := .next (s.skipIf (s.reg x == kk))

/-- SNE Vx,kk (R114). -/
def execSneImm (x : Reg) (kk : Byte) (s : State) : Result := .next (s.skipIf (s.reg x != kk))

/-- SE Vx,Vy (R115). -/
def execSeReg (x y : Reg) (s : State) : Result := .next (s.skipIf (s.reg x == s.reg y))

/-- SNE Vx,Vy (R116). -/
def execSneReg (x y : Reg) (s : State) : Result := .next (s.skipIf (s.reg x != s.reg y))

/-- SKP Vx (R118): the key whose number is the value of Vx; a number above 15 is a fault. -/
def execSkp (x : Reg) (s : State) : Result :=
  match keyIndex (s.reg x) with
  | some k => .next (s.skipIf (s.keyDown k))
  | none => raise (.keyIndexOutOfRange (s.reg x))

/-- SKNP Vx (R119). -/
def execSknp (x : Reg) (s : State) : Result :=
  match keyIndex (s.reg x) with
  | some k => .next (s.skipIf (!s.keyDown k))
  | none => raise (.keyIndexOutOfRange (s.reg x))

end Sys2Proof.Machine
end

