-- ==== Sys2Proof/Machine/Cycle.lean ====
section
/-! DEFINITION. NOP (spec/40_cycle.md R106). -/

namespace Sys2Proof.Machine

/-- NOP: only the pc moves (R106). -/
def execNop (s : State) : Result := .next s.advance

end Sys2Proof.Machine
end

