-- ==== Sys2Proof/Machine/Display.lean ====
section
/-! DEFINITION. Display (spec/44_display.md R170, R171). -/

namespace Sys2Proof.Machine

/-- CLS (R170): every pixel false. -/
def execCls (s : State) : Result := .next (s.setFb FrameBuffer.blank).advance

/-- DRW Vx,Vy,n (R171): the origin is reduced modulo the grid, the extent is clipped; no register is written (R174). -/
def execDrw (x y : Reg) (n : Count) (s : State) : Result :=
  let x0 := (s.reg x).toNat % Config.fbW
  let y0 := (s.reg y).toNat % Config.fbH
  s.readingData n (s.setFb (s.fb.blit y0 x0 (s.dataBytes n))).advance

end Sys2Proof.Machine
end

