-- ==== Sys2Proof/Machine/Index.lean ====
section
/-! DEFINITION. Index register and memory (spec/43_index_memory.md R150 to R155). -/

namespace Sys2Proof.Machine

/-- LD I,nnn (R150). -/
def execLdI (nnn : Addr12) (s : State) : Result := .next (s.setI (zext16 nnn)).advance

/-- ADD I,Vx (R151): modulo 65536, no flag. -/
def execAddI (x : Reg) (s : State) : Result := .next (s.setI (s.I + zextByte (s.reg x))).advance

/-- LD F,Vx (R152): the whole register, no glyph height. -/
def execLdF (x : Reg) (s : State) : Result := .next (s.setI (zextByte (s.reg x))).advance

/-- BCD Vx (R153). -/
def execBcd (x : Reg) (s : State) : Result :=
  s.writingData 3 (s.storeData (decimalDigits (s.reg x))).advance

/-- ST x (R154): the registers V0 .. V(x-1). -/
def execSt (x : Count) (s : State) : Result :=
  s.writingData x (s.storeData (s.firstRegs x)).advance

/-- LDM x (R155): the registers V0 .. V(x-1). -/
def execLdm (x : Count) (s : State) : Result :=
  s.readingData x (s.setV (loadRegs s.V 0 (s.dataBytes x))).advance

end Sys2Proof.Machine
end

