-- ==== Sys2Proof/Machine/Step.lean ====
section
/-! DEFINITION. The step (spec/40_cycle.md R100): fetch, decode, execute. -/

namespace Sys2Proof.Machine

/-- One step: exactly one instruction or exactly one fault (R100). -/
def step (s : State) : Host.Outcome State Fault Refusal :=
  match s.fetch with
  | .ok w => exec (decodeWord w) s
  | .error f => raise f

/-- The state with the instruction of the bits `w` stored where the next step fetches it. If nothing can be fetched at
the pc, the pc is moved to 0 first. -/
def State.withFetchWord (s : State) (nbits w : Nat) : State := s.placeWord (BitVec.ofNat 16 (w % 2 ^ nbits))

end Sys2Proof.Machine
end

