-- ==== Sys2Proof/Machine/HostOps.lean ====
section
/-! DEFINITION. The host's operations, each one atomic transition between steps (spec/70_reset_and_hazards.md R215;
spec/20_memory.md R62). The random byte supply is no operation here: it is the sequence Config.draws. -/

namespace Sys2Proof.Machine

/-- What the host can do (R215). -/
inductive HostOp where
  /-- `Reset()` (R210). -/
  | reset
  /-- `HostWriteWord(p, w)`: slot `p`, word `w` (spec/20_memory.md R66). -/
  | writeWord (p : Nat) (w : Word)
  /-- `HostSetKey(k, down)` (spec/10_state.md R37). -/
  | setKey (k : Nat) (down : Bool)
  /-- The frame-buffer read-out (spec/10_state.md R35). -/
  | readFrame
  /-- `Step()` (spec/40_cycle.md R100). -/
  | step
  deriving DecidableEq, Repr

/-- What the host gets back (R215). -/
inductive HostReply where
  /-- Nothing: the operation was performed. -/
  | done
  /-- The operation was refused and changed nothing (R66, spec/10_state.md R37). -/
  | refused
  /-- The 2048 pixels, row-major (spec/10_state.md R33, R35). -/
  | frame (pixels : List Bool)
  /-- `ok` of Step. -/
  | ok
  /-- `fault(kind, info)` of Step (spec/60_exceptions.md R184). -/
  | fault (f : Fault)
  /-- The step had no meaning for the instruction; no instruction of this model answers so. -/
  | noMeaning (r : Refusal)
  deriving DecidableEq, Repr

/-- `Reset()` (R210): every component of S to its reset value; the random source is not reset
(spec/92_eei_decisions.md D21). -/
def State.hostReset (s : State) : State := { State.reset with drawIndex := s.drawIndex }

/-- `HostWriteWord(p, w)` (spec/20_memory.md R66): the word at byte address `2p`, or a refusal. -/
def State.hostWriteWord (s : State) (p : Nat) (w : Word) : Option State :=
  if 2 * p + 1 < Config.memBytes then some (s.setMem (s.mem.writeWord (2 * p) w)) else none

/-- `HostSetKey(k, down)` (spec/10_state.md R37), or a refusal. -/
def State.hostSetKey (s : State) (k : Nat) (down : Bool) : Option State :=
  if h : k < Config.nKeys then some (s.setKey ⟨k, h⟩ down) else none

/-- The frame buffer as the host sees it: the pixel of row `y` and column `x` at index `64*y + x`
(spec/10_state.md R33, R35). -/
def State.frameView (s : State) : List Bool := (s.fb.toList.map Vector.toList).flatten

/-- An operation that may be refused; a refused one changes nothing. -/
def orRefused (s : State) (t : Option State) : State × HostReply :=
  match t with
  | some t => (t, .done)
  | none => (s, .refused)

/-- `Step()` as the host sees it: a fault leaves the state exactly as it was (spec/60_exceptions.md R184). -/
def State.hostStep (s : State) : State × HostReply :=
  match Sys2Proof.Machine.step s with
  | .next t => (t, .ok)
  | .fault f => (s, .fault f)
  | .refused r => (s, .noMeaning r)

/-- One host operation. -/
def hostApply (op : HostOp) (s : State) : State × HostReply :=
  match op with
  | .reset => (s.hostReset, .done)
  | .writeWord p w => orRefused s (s.hostWriteWord p w)
  | .setKey k down => orRefused s (s.hostSetKey k down)
  | .readFrame => (s, .frame s.frameView)
  | .step => s.hostStep

/-- A sequence of host operations, with their replies: the whole system's execution (spec/20_memory.md R62). -/
def hostRun (ops : List HostOp) (s : State) : State × List HostReply :=
  match ops with
  | [] => (s, [])
  | op :: rest =>
    let (t, reply) := hostApply op s
    let (u, replies) := hostRun rest t
    (u, reply :: replies)

end Sys2Proof.Machine
end

