-- ==== Sys2Proof/Safety.lean ====
section
/-! DEFINITION. What statements are said in: the invariant of every step, the fault conditions of
spec/60_exceptions.md R180, what an instruction may change (its frame), and the sprite's bits. -/

namespace Sys2Proof.Machine

/-- Every caller's entry below the cursor is the address of an instruction that was fetched, at most 1789
(spec/10_state.md R32). -/
abbrev State.CallersFetchable (s : State) : Prop := ∀ k : Fin 16, k < s.sp → (s.entry k).toNat ≤ 1789

/-- The invariant: memory is in canonical form, so only existing addresses are listed; every caller's entry is a
fetchable address; the pc is at most 4350, the largest target of JP V0,nnn (spec/10_state.md R32). -/
abbrev State.Inv (s : State) : Prop := s.mem.wf ∧ s.CallersFetchable ∧ s.pc.toNat ≤ 4350

/-- A step is safe if it gives a next state. -/
def SafeStep (s : State) : Prop := ∃ t, step s = .next t

/-- An access of `c` bytes at `I` touches an address that does not exist (spec/20_memory.md R56). -/
abbrev State.RunsOff (s : State) (c : Nat) : Prop := 0 < c ∧ 1791 ≤ s.I.toNat + c - 1

/-- The lowest non-existent address an access at `I` that runs off would touch (spec/20_memory.md R56). -/
abbrev State.lowestBad (s : State) : Nat := max s.I.toNat 1791

/-- The fault of an instruction, if its condition holds: the table of spec/60_exceptions.md R180, rows 2 to 6. -/
def faultOf (i : Instr) (s : State) : Option Fault :=
  match i with
  | .drw _ _ c | .ldm c => if s.RunsOff c then some (.dataReadOutOfRange s.lowestBad) else none
  | .bcd _ => if s.RunsOff 3 then some (.dataWriteOutOfRange s.lowestBad) else none
  | .st c => if s.RunsOff c then some (.dataWriteOutOfRange s.lowestBad) else none
  | .call _ => if s.sp = 15 then some (.stackOverflow s.pc) else none
  | .ret => if s.sp = 0 then some (.stackUnderflow s.pc) else none
  | .skp x | .sknp x => if 16 ≤ (s.reg x).toNat then some (.keyIndexOutOfRange (s.reg x)) else none
  | .cls | .jp _ | .seImm _ _ | .sneImm _ _ | .seReg _ _ | .ldImm _ _ | .addImm _ _ | .orReg _ _
  | .andReg _ _ | .xorReg _ _ | .addReg _ _ | .subReg _ _ | .shrReg _ _ | .shlReg _ _ | .sneReg _ _
  | .ldI _ | .jpV0 _ | .rnd _ _ | .addI _ | .ldF _ | .nop _ => none

/-- The pc an instruction leaves in the top entry when it completes (spec/10_state.md R31). -/
def pcAfter (i : Instr) (s : State) : Word :=
  let skip (cond : Bool) : Word := if cond then s.pc + 4#16 else s.pc + 2#16
  match i with
  | .jp nnn | .call nnn => BitVec.ofNat 16 nnn.toNat
  | .jpV0 nnn => BitVec.ofNat 16 ((s.reg 0).toNat + nnn.toNat)
  | .ret => s.entry (s.sp - 1) + 2#16
  | .seImm x kk => skip (s.reg x == kk)
  | .sneImm x kk => skip (s.reg x != kk)
  | .seReg x y => skip (s.reg x == s.reg y)
  | .sneReg x y => skip (s.reg x != s.reg y)
  | .skp x => skip (s.key.toList.getD (s.reg x).toNat false)
  | .sknp x => skip (!s.key.toList.getD (s.reg x).toNat false)
  | .cls | .ldImm _ _ | .addImm _ _ | .orReg _ _ | .andReg _ _ | .xorReg _ _ | .addReg _ _ | .subReg _ _
  | .shrReg _ _ | .shlReg _ _ | .ldI _ | .rnd _ _ | .drw _ _ _ | .addI _ | .ldF _ | .bcd _ | .st _ | .ldm _
  | .nop _ => s.pc + 2#16

/-- The state with other key flags. -/
def State.withKeys (s : State) (key : Vector Bool 16) : State := { s with key := key }

/-- The outcome with the key flags in `key` in its next state, if it has one. -/
def withKeys (o : Result) (key : Vector Bool 16) : Result :=
  match o with
  | .next t => .next (t.withKeys key)
  | .fault f => .fault f
  | .refused r => .refused r

/-- What a transition may change besides the pc; nothing by default. -/
structure Writes where
  /-- The general registers it may write. -/
  regs : Reg → Prop := fun _ => False
  /-- Whether it may write `I`. -/
  index : Prop := False
  /-- The addresses of main memory it may write. -/
  mem : Nat → Prop := fun _ => False
  /-- Whether it may write the frame buffer. -/
  frameBuffer : Prop := False
  /-- Whether it may move the depth cursor. -/
  depth : Prop := False
  /-- Whether it may take a draw. -/
  draws : Prop := False

/-- Everything outside `w` is as before: registers, `I`, every byte of main memory, frame buffer, depth cursor, every
stack entry that is neither the old nor the new top, keys, and the position in the random source. -/
def Frame (w : Writes) (s t : State) : Prop :=
  (∀ r, ¬ w.regs r → t.reg r = s.reg r)
  ∧ (¬ w.index → t.I = s.I)
  ∧ (∀ a, ¬ w.mem a → t.mem.read a = s.mem.read a)
  ∧ (¬ w.frameBuffer → t.fb = s.fb)
  ∧ (¬ w.depth → t.sp = s.sp)
  ∧ (∀ k, k ≠ s.sp → k ≠ t.sp → t.entry k = s.entry k)
  ∧ t.key = s.key
  ∧ (¬ w.draws → t.drawIndex = s.drawIndex)

/-- The sprite bit of DRW at row `row`, column `col` of the grid (spec/44_display.md R171): within the 8 columns from
`V[x] mod 64` and the `n` rows from `V[y] mod 32`, the bit of the row's byte, most significant first; else 0. -/
def State.spriteBit (s : State) (x y : Reg) (n : Count) (row col : Nat) : Bool :=
  let x0 := (s.reg x).toNat % 64
  let y0 := (s.reg y).toNat % 32
  decide (x0 ≤ col ∧ col < x0 + 8 ∧ y0 ≤ row ∧ row < y0 + n)
    && (s.mem.read (s.I.toNat + (row - y0))).getLsbD (7 - (col - x0))

/-- Two states that agree on everything a program can use: all but the frame buffer and the stack entries above the
cursor (spec/10_state.md R26, R34). -/
def Alike (s t : State) : Prop :=
  s.mem = t.mem ∧ s.V = t.V ∧ s.I = t.I ∧ s.sp = t.sp ∧ (∀ k, k ≤ s.sp → s.entry k = t.entry k) ∧ s.key = t.key
  ∧ s.drawIndex = t.drawIndex

/-- A sequence of steps, each of which ends at depth `d` or deeper. -/
inductive StepsAbove (d : Fin 16) : State → State → Prop where
  /-- No step. -/
  | refl (s : State) : StepsAbove d s s
  /-- Such a sequence, and one more step that ends at depth `d` or deeper. -/
  | tail {s t u : State} : StepsAbove d s t → step t = .next u → d ≤ u.sp → StepsAbove d s u

end Sys2Proof.Machine
end

