-- ==== Sys2Proof/Certificates/Slice0/Obligations.lean ====
section
/-! DEFINITION. The statements for the provers, each a Prop; every docstring names the rule of spec/ it formalises. -/

open Sys2Proof Sys2Proof.Machine

/-! ### Reset, invariant, step -/

/-- spec/10_state.md R41: the state after reset, every component. (The position in the random source is no component
of the machine's state; nothing is said of it.) What R41 fills in beyond the source's "all-zero" is the spec's
decision D21. -/
def Obligations.ResetState : Prop :=
  (∀ a, State.reset.mem.read a = 0x00#8) ∧ (∀ r, State.reset.reg r = 0x00#8) ∧ State.reset.I = 0x0000#16
  ∧ State.reset.sp = 0 ∧ (∀ k, State.reset.entry k = 0x0000#16) ∧ State.reset.pc = 0x0000#16
  ∧ (∀ y x, State.reset.fb.pixel y x = false) ∧ ∀ k, State.reset.keyDown k = false

/-- The invariant holds at reset (spec/10_state.md R32, R41). R32's bounds rest on the spec's decisions D1, D2, D3 and
D4. The reset values are its decision D21. -/
def Obligations.ResetInv : Prop := State.reset.Inv

/-- Every step keeps the invariant: canonical memory, fetchable callers, pc at most 4350 (spec/10_state.md R32). R32's
bounds rest on the spec's decisions D1 (targets are byte addresses), D2 (no alignment), D3 (16 bits) and D4 (a
caller's entry is the CALL's own address). -/
def Obligations.StepKeepsInv : Prop := ∀ s t : State, s.Inv → step s = .next t → t.Inv

/-- Every host operation and every sequence of them keeps the invariant (spec/70_reset_and_hazards.md R215). R32's
bounds rest on the spec's decisions D1 to D4, the refused operations on its decision D19. The reset values are its
decision D21. -/
def Obligations.HostKeepsInv : Prop := ∀ (ops : List HostOp) (s : State), s.Inv → (hostRun ops s).1.Inv

/-- spec/40_cycle.md R100: at an unfetchable pc the step raises FetchOutOfRange; else it is the decoded instruction's
meaning at that state; and on a fault the state is left as it was at entry. The fetch fault is the spec's decision D7
(its name and info value D6), that an odd pc is fetched its decision D2, the unchanged state its decisions D5 and D11. -/
def Obligations.StepRunsDecoded : Prop :=
  ∀ s : State,
    (1791 ≤ s.pc.toNat + 1 → step s = .fault (.fetchOutOfRange s.pc))
    ∧ (s.pc.toNat + 1 < 1791 →
        ∀ i, decode [s.mem.read s.pc.toNat, s.mem.read (s.pc.toNat + 1)] = .ok (i, []) → step s = exec i s)
    ∧ ∀ f, step s = .fault f → hostApply .step s = (s, .fault f)

/-- A step gives a next state or a fault, never a third outcome (spec/00_scope.md R9). These two outcomes are the
spec's decision D5, that a fetch out of range is one of them and no halt its decision D7. -/
def Obligations.StepNeverRefuses : Prop :=
  ∀ s : State, (∃ t, step s = .next t) ∨ ∃ f, step s = .fault f

/-! ### Encoding -/

/-- Words written out from the formats of spec/30_encoding.md R81 decode to the instruction they stand for. -/
def Obligations.DecodedWords : Prop :=
  decodeWord 0b0000000011100000#16 = .cls
  ∧ decodeWord 0b0001101010111100#16 = .jp 0xABC#12
  ∧ decodeWord 0b0011010111000011#16 = .seImm 5 0xC3#8
  ∧ decodeWord 0b1000001001110101#16 = .subReg 2 7
  ∧ decodeWord 0b1101000100101111#16 = .drw 1 2 15
  ∧ decodeWord 0b1110110110100001#16 = .sknp 13
  ∧ decodeWord 0b1111011001010101#16 = .st 6
  ∧ decodeWord 0b1000001001110111#16 = .nop 0x8277#16

/-- Decoding the bytes of a well-formed instruction gives it back, and the bytes after it. Which words are NOPs rests
on the spec's decisions D16 and D24. -/
def Obligations.DecodeEncode : Prop :=
  ∀ (i : Instr) (rest : List Byte), WellFormed i = true → decode (encodeBytes i ++ rest) = .ok (i, rest)

/-- Every word decodes to a well-formed instruction, and encoding that gives the word back, but for the ignored low
nibble of families 5 and 9, which is emitted as 0 (spec/30_encoding.md R85, R88). The ignored nibble is the spec's
decision D16; that family 0 compares all 16 bits its decision D24. -/
def Obligations.EncodeDecode : Prop :=
  ∀ w : Word, WellFormed (decodeWord w) = true
    ∧ encode (decodeWord w) = if w >>> 12 = 0x5#16 ∨ w >>> 12 = 0x9#16 then w &&& 0xFFF0#16 else w

/-- The decoder of spec/30_encoding.md R83 selects the row of the table R84: `w & mask = match`. The masks of families
5 and 9 are the spec's decision D16, those of family 0 its decision D24. -/
def Obligations.DecodeFollowsTable : Prop := ∀ w : Word, rowOf (decodeWord w) = tableRow w

/-- "The rows never overlap" (spec/30_encoding.md R83): no word is selected by two rows of R84. The masks of families
5 and 9 are the spec's decision D16, those of family 0 its decision D24. -/
def Obligations.NoRowsOverlap : Prop :=
  opcodeTable.Pairwise (fun p q => ∀ w : Word, ¬ (rowSelects p w = true ∧ rowSelects q w = true))

/-- The words that decode to NOP are those of the families R86 lists (spec/30_encoding.md R86, R87). That families 5
and 9 have no NOP words is the spec's decision D16, that family 0 has all but two its decision D24. -/
def Obligations.NopSpaceExact : Prop := ∀ w : Word, decodeWord w = .nop w ↔ nopSpace w = true

/-! ### NOP and control transfer -/

/-- spec/40_cycle.md R106: NOP, every word of the NOP space, changes nothing but the pc; that it moves the pc
by 2 is the spec's decision D17. -/
def Obligations.NopResult : Prop :=
  ∀ (s : State) (w : Word), ∃ t, exec (.nop w) s = .next t ∧ t.pc = s.pc + 2#16 ∧ Frame {} s t

/-- spec/41_control_flow.md R111: JP sets the pc to nnn, whatever the target (the unit of nnn is the spec's decision
D1, that an odd target is taken as it is its decision D2); a JP to its own address leaves the state as it is. -/
def Obligations.JpResult : Prop :=
  ∀ (s : State) (nnn : Addr12),
    (∃ t, exec (.jp nnn) s = .next t ∧ t.pc.toNat = nnn.toNat ∧ Frame {} s t)
    ∧ (s.pc.toNat = nnn.toNat → exec (.jp nnn) s = .next s)

/-- spec/41_control_flow.md R117: JP V0 sets the pc to V[0] + nnn, not reduced to 12 bits; VF is not written. That an
odd target is taken as it is is the spec's decision D2 (log entry 5). -/
def Obligations.JpV0Result : Prop :=
  ∀ (s : State) (nnn : Addr12),
    ∃ t, exec (.jpV0 nnn) s = .next t ∧ t.pc.toNat = (s.reg 0).toNat + nnn.toNat ∧ Frame {} s t

/-- The pc each instruction leaves, for every instruction (spec/10_state.md R31): CALL leaves its own address in the
caller's entry, and after a fault the pc is as before. It rests on the spec's decisions D1, D2, D4, D5, D8 and D17. -/
def Obligations.PcAfter : Prop :=
  (∀ (i : Instr) (s t : State), exec i s = .next t → t.pc = pcAfter i s)
  ∧ (∀ (s t : State) (nnn : Addr12), exec (.call nnn) s = .next t → t.entry s.sp = s.pc)
  ∧ ∀ (s : State) (f : Fault), step s = .fault f → (hostApply .step s).1.pc = s.pc

/-- spec/41_control_flow.md R112: CALL faults at depth 15; else a new frame at nnn, the caller's entry left at the
CALL's own address (the spec's decisions D1 and D4). That an odd target is taken as it is is its decision D2, the
fault's name and info value its decision D6. -/
def Obligations.CallResult : Prop :=
  ∀ (s : State) (nnn : Addr12),
    (s.sp = 15 → exec (.call nnn) s = .fault (.stackOverflow s.pc))
    ∧ (s.sp ≠ 15 → ∃ t, exec (.call nnn) s = .next t ∧ t.sp.val = s.sp.val + 1 ∧ t.pc.toNat = nnn.toNat
        ∧ t.entry s.sp = s.pc ∧ Frame { depth := True } s t)

/-- spec/41_control_flow.md R110: RET faults at depth 0; else the caller's entry is uncovered and 2 is added to it;
the abandoned entry keeps its value. That the 2 is added is the spec's decision D4. The fault's name and info value
are its decision D6. -/
def Obligations.RetResult : Prop :=
  ∀ s : State,
    (s.sp = 0 → exec .ret s = .fault (.stackUnderflow s.pc))
    ∧ ∀ c : Fin 16, s.sp.val = c.val + 1 → ∃ t, exec .ret s = .next t ∧ t.sp = c ∧ t.pc = s.entry c + 2#16
        ∧ t.entry s.sp = s.entry s.sp ∧ Frame { depth := True } s t

/-- spec/41_control_flow.md R120: a CALL, steps that never go below the new frame's depth d and end in it, and a RET:
the depth and the entries below are as before the CALL and the pc is at the instruction after it; with no step
between, the abandoned entry is nnn. It rests on the spec's decisions D1, D2 and D4. -/
def Obligations.CallReturn : Prop :=
  ∀ (s : State) (nnn : Addr12) (d : Fin 16), s.pc.toNat + 1 < 1791 →
    decodeWord (wordOfBytes (s.mem.read s.pc.toNat) (s.mem.read (s.pc.toNat + 1))) = .call nnn →
    d.val = s.sp.val + 1 →
    ∃ t, step s = .next t ∧ t.sp = d ∧ ∀ m, StepsAbove d t m → m.sp = d → m.pc.toNat + 1 < 1791 →
      decodeWord (wordOfBytes (m.mem.read m.pc.toNat) (m.mem.read (m.pc.toNat + 1))) = .ret →
      ∃ u, step m = .next u ∧ u.sp = s.sp ∧ u.pc = s.pc + 2#16 ∧ (∀ k, k < s.sp → u.entry k = s.entry k)
        ∧ (m = t → (u.entry d).toNat = nnn.toNat)

/-- spec/41_control_flow.md R113, R114: the skips that compare a register with an immediate. -/
def Obligations.SkipImmResult : Prop :=
  ∀ (s : State) (x : Reg) (kk : Byte),
    (∃ t, exec (.seImm x kk) s = .next t ∧ t.pc = (if s.reg x = kk then s.pc + 4#16 else s.pc + 2#16) ∧ Frame {} s t)
    ∧ ∃ t, exec (.sneImm x kk) s = .next t
        ∧ t.pc = (if s.reg x ≠ kk then s.pc + 4#16 else s.pc + 2#16) ∧ Frame {} s t

/-- spec/41_control_flow.md R115, R116: the skips that compare two registers. That the low nibble of their words takes
no part (spec/30_encoding.md R85) is the spec's decision D16 (log entry 5). -/
def Obligations.SkipRegResult : Prop :=
  ∀ (s : State) (x y : Reg),
    (∃ t, exec (.seReg x y) s = .next t
        ∧ t.pc = (if s.reg x = s.reg y then s.pc + 4#16 else s.pc + 2#16) ∧ Frame {} s t)
    ∧ (∃ t, exec (.sneReg x y) s = .next t
        ∧ t.pc = (if s.reg x ≠ s.reg y then s.pc + 4#16 else s.pc + 2#16) ∧ Frame {} s t)
    ∧ ∀ low : BitVec 4, decodeWord (formatR 0x5#4 x y low) = .seReg x y
        ∧ decodeWord (formatR 0x9#4 x y low) = .sneReg x y

/-- spec/41_control_flow.md R118, R119: the skips on the key whose number is the value of V[x]; a number above 15 is a
fault, which is the spec's decision D8. Its name and info value are the spec's decision D6. -/
def Obligations.SkipKeyResult : Prop :=
  ∀ (s : State) (x : Reg),
    (∀ k : Fin 16, (s.reg x).toNat = k.val →
      (∃ t, exec (.skp x) s = .next t
          ∧ t.pc = (if s.keyDown k = true then s.pc + 4#16 else s.pc + 2#16) ∧ Frame {} s t)
      ∧ ∃ t, exec (.sknp x) s = .next t
          ∧ t.pc = (if s.keyDown k = false then s.pc + 4#16 else s.pc + 2#16) ∧ Frame {} s t)
    ∧ (16 ≤ (s.reg x).toNat → exec (.skp x) s = .fault (.keyIndexOutOfRange (s.reg x))
        ∧ exec (.sknp x) s = .fault (.keyIndexOutOfRange (s.reg x)))

/-! ### Register load, arithmetic, logic, shift, random -/

/-- spec/42_register_alu.md R130, R131: LD Vx,kk, and ADD Vx,kk modulo 256 with no flag. -/
def Obligations.ImmediateResult : Prop :=
  ∀ (s : State) (x : Reg) (kk : Byte),
    (∃ t, exec (.ldImm x kk) s = .next t ∧ t.reg x = kk ∧ t.pc = s.pc + 2#16 ∧ Frame { regs := (· = x) } s t)
    ∧ ∃ t, exec (.addImm x kk) s = .next t ∧ (t.reg x).toNat = ((s.reg x).toNat + kk.toNat) % 256
        ∧ t.pc = s.pc + 2#16 ∧ Frame { regs := (· = x) } s t

/-- spec/42_register_alu.md R132, R133, R134: OR, AND, XOR; no flag. -/
def Obligations.LogicResult : Prop :=
  ∀ (s : State) (x y : Reg),
    (∃ t, exec (.orReg x y) s = .next t ∧ t.reg x = s.reg x ||| s.reg y ∧ t.pc = s.pc + 2#16
        ∧ Frame { regs := (· = x) } s t)
    ∧ (∃ t, exec (.andReg x y) s = .next t ∧ t.reg x = s.reg x &&& s.reg y ∧ t.pc = s.pc + 2#16
        ∧ Frame { regs := (· = x) } s t)
    ∧ ∃ t, exec (.xorReg x y) s = .next t ∧ t.reg x = s.reg x ^^^ s.reg y ∧ t.pc = s.pc + 2#16
        ∧ Frame { regs := (· = x) } s t

/-- spec/42_register_alu.md R135 (with R140's law): the sum modulo 256, VF the carry. That the flag is written after the
sum, so that it stays when x is VF, is the spec's decision D15 (log entry 5). -/
def Obligations.AddRegResult : Prop :=
  ∀ (s : State) (x y : Reg), ∃ t, exec (.addReg x y) s = .next t
    ∧ t.reg 15 = (if 256 ≤ (s.reg x).toNat + (s.reg y).toNat then 1#8 else 0#8)
    ∧ (x ≠ 15 → (t.reg x).toNat = ((s.reg x).toNat + (s.reg y).toNat) % 256)
    ∧ t.pc = s.pc + 2#16 ∧ Frame { regs := fun r => r = x ∨ r = 15 } s t

/-- spec/42_register_alu.md R136 (with R140's law): the difference modulo 256, VF the borrow. The flag's polarity is the
spec's decision D23, and that it is written after the difference the spec's decision D15 (log entry 5). -/
def Obligations.SubRegResult : Prop :=
  ∀ (s : State) (x y : Reg), ∃ t, exec (.subReg x y) s = .next t
    ∧ t.reg 15 = (if (s.reg x).toNat < (s.reg y).toNat then 1#8 else 0#8)
    ∧ (x ≠ 15 → (t.reg x).toNat = ((s.reg x).toNat + 256 - (s.reg y).toNat) % 256)
    ∧ t.pc = s.pc + 2#16 ∧ Frame { regs := fun r => r = x ∨ r = 15 } s t

/-- spec/42_register_alu.md R137: VF takes bit 0 of V[y]; then V[x] takes V[y] shifted right, V[y] read again:
the sequential order is the spec's decision D15. -/
def Obligations.ShrResult : Prop :=
  ∀ (s : State) (x y : Reg), ∃ t, exec (.shrReg x y) s = .next t
    ∧ (x ≠ 15 → (t.reg 15).toNat = (s.reg y).toNat % 2)
    ∧ (y ≠ 15 → (t.reg x).toNat = (s.reg y).toNat / 2)
    ∧ (y = 15 → t.reg x = 0#8)
    ∧ t.pc = s.pc + 2#16 ∧ Frame { regs := fun r => r = x ∨ r = 15 } s t

/-- spec/42_register_alu.md R138: VF takes bit 7 of V[y]; then V[x] takes V[y] shifted left, V[y] read again:
the sequential order is the spec's decision D15. -/
def Obligations.ShlResult : Prop :=
  ∀ (s : State) (x y : Reg), ∃ t, exec (.shlReg x y) s = .next t
    ∧ (x ≠ 15 → (t.reg 15).toNat = (s.reg y).toNat / 128)
    ∧ (y ≠ 15 → (t.reg x).toNat = 2 * (s.reg y).toNat % 256)
    ∧ (y = 15 → (t.reg x).toNat = 2 * ((s.reg y).toNat / 128))
    ∧ t.pc = s.pc + 2#16 ∧ Frame { regs := fun r => r = x ∨ r = 15 } s t

/-- spec/42_register_alu.md R139: one draw, whatever kk is (the spec's decision D18); V[x] is the drawn byte and kk, so
no bit outside kk is set. The drawn byte is a free value (log entry 1): nothing is said of it. -/
def Obligations.RndResult : Prop :=
  ∀ (s : State) (x : Reg) (kk : Byte), ∃ t, exec (.rnd x kk) s = .next t
    ∧ t.reg x = Config.draws s.drawIndex &&& kk ∧ t.reg x &&& ~~~kk = 0#8
    ∧ t.drawIndex = s.drawIndex + 1 ∧ t.pc = s.pc + 2#16 ∧ Frame { regs := (· = x), draws := True } s t

/-! ### Index register and memory -/

/-- spec/43_index_memory.md R150, R152: LD I,nnn takes the 12-bit field, LD F,Vx the whole register. -/
def Obligations.IndexLoadResult : Prop :=
  ∀ (s : State) (nnn : Addr12) (x : Reg),
    (∃ t, exec (.ldI nnn) s = .next t ∧ t.I.toNat = nnn.toNat ∧ t.pc = s.pc + 2#16 ∧ Frame { index := True } s t)
    ∧ ∃ t, exec (.ldF x) s = .next t ∧ t.I.toNat = (s.reg x).toNat ∧ t.pc = s.pc + 2#16
        ∧ Frame { index := True } s t

/-- spec/43_index_memory.md R151: ADD I,Vx; that the sum wraps modulo 65536 is the spec's decision D12. -/
def Obligations.AddIResult : Prop :=
  ∀ (s : State) (x : Reg), ∃ t, exec (.addI x) s = .next t ∧ t.I.toNat = (s.I.toNat + (s.reg x).toNat) % 65536
    ∧ t.pc = s.pc + 2#16 ∧ Frame { index := True } s t

/-- spec/43_index_memory.md R153: BCD stores the three decimal digits of V[x] at I, I+1, I+2, or faults before writing
anything (the spec's decisions D11, D13, D14). That addresses do not wrap is the spec's decision D12, the fault's name
and info value its decision D6. -/
def Obligations.BcdResult : Prop :=
  ∀ (s : State) (x : Reg),
    (s.RunsOff 3 → exec (.bcd x) s = .fault (.dataWriteOutOfRange s.lowestBad))
    ∧ (s.mem.wf → ¬ s.RunsOff 3 → ∃ t, exec (.bcd x) s = .next t
        ∧ (t.mem.read s.I.toNat).toNat = (s.reg x).toNat / 100
        ∧ (t.mem.read (s.I.toNat + 1)).toNat = (s.reg x).toNat / 10 % 10
        ∧ (t.mem.read (s.I.toNat + 2)).toNat = (s.reg x).toNat % 10
        ∧ t.pc = s.pc + 2#16 ∧ Frame { mem := fun a => s.I.toNat ≤ a ∧ a < s.I.toNat + 3 } s t)

/-- spec/43_index_memory.md R154: ST x stores V[0]..V[x-1] at I onward, or faults before writing anything; x = 0
stores nothing and cannot fault (the spec's decisions D11, D13). That addresses do not wrap is the spec's decision
D12, the fault's name and info value its decision D6. -/
def Obligations.StResult : Prop :=
  ∀ (s : State) (x : Count),
    (s.RunsOff x → exec (.st x) s = .fault (.dataWriteOutOfRange s.lowestBad))
    ∧ (s.mem.wf → ¬ s.RunsOff x → ∃ t, exec (.st x) s = .next t
        ∧ (∀ r : Reg, r < x → t.mem.read (s.I.toNat + r) = s.reg r)
        ∧ t.pc = s.pc + 2#16 ∧ Frame { mem := fun a => s.I.toNat ≤ a ∧ a < s.I.toNat + x } s t)

/-- spec/43_index_memory.md R155: LDM x loads V[0]..V[x-1] from I onward, or faults before writing anything; x = 0
loads nothing and cannot fault (the spec's decisions D11, D13). That addresses do not wrap is the spec's decision D12,
the fault's name and info value its decision D6. -/
def Obligations.LdmResult : Prop :=
  ∀ (s : State) (x : Count),
    (s.RunsOff x → exec (.ldm x) s = .fault (.dataReadOutOfRange s.lowestBad))
    ∧ (¬ s.RunsOff x → ∃ t, exec (.ldm x) s = .next t
        ∧ (∀ r : Reg, r < x → t.reg r = s.mem.read (s.I.toNat + r))
        ∧ t.pc = s.pc + 2#16 ∧ Frame { regs := (· < x) } s t)

/-- A word stored by ST or BCD is what the next fetch there reads (spec/20_memory.md R64, R53). The digits are the
spec's decision D14, that an odd address is fetched its decision D2. -/
def Obligations.StoreSeenByFetch : Prop :=
  ∀ (s t : State) (p : Word), s.mem.wf →
    (∀ (x : Count) (r q : Reg), exec (.st x) s = .next t → q.val = r.val + 1 → q < x → p.toNat = s.I.toNat + r →
      (t.setPc p).fetch = .ok (wordOfBytes (s.reg r) (s.reg q)))
    ∧ ∀ x : Reg, exec (.bcd x) s = .next t →
      (p.toNat = s.I.toNat →
        (t.setPc p).fetch = .ok (wordOfBytes (s.reg x / 100#8) (s.reg x / 10#8 % 10#8)))
      ∧ (p.toNat = s.I.toNat + 1 →
        (t.setPc p).fetch = .ok (wordOfBytes (s.reg x / 10#8 % 10#8) (s.reg x % 10#8)))

/-! ### Display -/

/-- spec/44_display.md R170: CLS makes every pixel false. -/
def Obligations.ClsResult : Prop :=
  ∀ s : State, ∃ t, exec .cls s = .next t ∧ (∀ row col, t.fb.pixel row col = false) ∧ t.pc = s.pc + 2#16
    ∧ Frame { frameBuffer := True } s t

/-- spec/44_display.md R171: DRW exclusive-ors the sprite bit into every pixel, clipped at the edges, or faults before
changing anything; no register is written (the spec's decisions D9, D10, D11). That I is unchanged is the spec's
decision D13, that addresses do not wrap its decision D12, the fault's name and info value its decision D6. -/
def Obligations.DrwResult : Prop :=
  ∀ (s : State) (x y : Reg) (n : Count),
    (s.RunsOff n → exec (.drw x y n) s = .fault (.dataReadOutOfRange s.lowestBad))
    ∧ (¬ s.RunsOff n → ∃ t, exec (.drw x y n) s = .next t
        ∧ (∀ (row : Fin 32) (col : Fin 64),
            t.fb.pixel row col = (s.fb.pixel row col ^^ s.spriteBit x y n row col))
        ∧ t.pc = s.pc + 2#16 ∧ Frame { frameBuffer := True } s t)

/-- spec/44_display.md R172: a second DRW with the same origin, height, I and bytes undoes the first; and the pixels
inverted do not depend on the frame buffer's contents. That the height is the operand n is the spec's decision D9. -/
def Obligations.DrwSelfInverse : Prop :=
  ∀ (s t s' t' : State) (x y x' y' : Reg) (n : Count),
    exec (.drw x y n) s = .next t → exec (.drw x' y' n) s' = .next t' →
    (s'.reg x').toNat % 64 = (s.reg x).toNat % 64 → (s'.reg y').toNat % 32 = (s.reg y).toNat % 32 →
    (∀ k, k < n.val → s'.mem.read (s'.I.toNat + k) = s.mem.read (s.I.toNat + k)) →
    (s'.fb = t.fb → t'.fb = s.fb)
    ∧ ∀ (row : Fin 32) (col : Fin 64),
        (t'.fb.pixel row col ≠ s'.fb.pixel row col ↔ t.fb.pixel row col ≠ s.fb.pixel row col)

/-! ### Faults -/

/-- spec/60_exceptions.md R180, R187: the fetch fault first, then the one fault condition of the decoded instruction;
these faults and no others. The kinds and their info values are the spec's decisions D6, D7, D8. The one bounds check
is the spec's decision D11, that addresses do not wrap its decision D12, that DRW's count is its operand n its
decision D9, and that an odd pc is no fault its decision D2. -/
def Obligations.FaultsExactly : Prop :=
  (∀ (i : Instr) (s : State) (f : Fault), exec i s = .fault f ↔ faultOf i s = some f)
  ∧ ∀ (s : State) (f : Fault), step s = .fault f ↔
      if s.pc.toNat + 1 < 1791 then
        faultOf (decodeWord (wordOfBytes (s.mem.read s.pc.toNat) (s.mem.read (s.pc.toNat + 1)))) s = some f
      else f = .fetchOutOfRange s.pc

/-- The address a data fault reports is the lowest non-existent address of its access (spec/20_memory.md R56,
spec/60_exceptions.md R182). That DRW's count is its operand n is the spec's decision D9. The one bounds check is the
spec's decision D11, that addresses do not wrap its decision D12, the kinds and info values its decision D6. -/
def Obligations.DataFaultLowest : Prop :=
  ∀ (i : Instr) (s : State) (a c : Nat),
    (exec i s = .fault (.dataReadOutOfRange a) ∧ ((∃ x y n, i = .drw x y n ∧ c = n.val) ∨ ∃ n, i = .ldm n ∧ c = n.val)
      ∨ exec i s = .fault (.dataWriteOutOfRange a) ∧ ((∃ x, i = .bcd x ∧ c = 3) ∨ ∃ n, i = .st n ∧ c = n.val)) →
    1791 ≤ a ∧ s.I.toNat ≤ a ∧ a < s.I.toNat + c ∧ ∀ b, s.I.toNat ≤ b → 1791 ≤ b → a ≤ b

/-- spec/60_exceptions.md R184, R186: a faulting step leaves the state exactly as it was, and every further step
reports the same fault (the spec's decision D5; that an access which runs off is checked before anything is written is
its decision D11). -/
def Obligations.FaultRepeats : Prop :=
  ∀ (s : State) (f : Fault) (n : Nat), step s = .fault f →
    hostRun (List.replicate n .step) s = (s, List.replicate n (.fault f))

/-! ### Whole-machine rules -/

/-- No instruction but BCD and ST writes main memory, and they only at I onward (spec/20_memory.md R59). -/
def Obligations.MemoryWriters : Prop :=
  ∀ (i : Instr) (s t : State) (a : Nat), exec i s = .next t → t.mem.read a ≠ s.mem.read a →
    ((∃ x, i = .bcd x) ∧ s.I.toNat ≤ a ∧ a < s.I.toNat + 3)
    ∨ ∃ n : Count, i = .st n ∧ s.I.toNat ≤ a ∧ a < s.I.toNat + n

/-- spec/10_state.md R36: no instruction writes the key state; only SKP and SKNP read it, each the single flag
key[V[x]]: with the key flags changed elsewhere, every instruction does the same. That a V[x] above 15 reads no flag
is the spec's decision D8 (log entry 5), that no instruction writes the flags its resolution C8. -/
def Obligations.KeyStateReads : Prop :=
  (∀ (i : Instr) (s t : State), exec i s = .next t → t.key = s.key)
  ∧ ∀ (i : Instr) (s : State) (key : Vector Bool 16),
      (∀ x, i = .skp x ∨ i = .sknp x → ∀ k : Fin 16, k.val = (s.reg x).toNat → key[k] = s.key[k]) →
      exec i (s.withKeys key) = withKeys (exec i s) key

/-- Only CLS and DRW write the frame buffer (spec/10_state.md R34). That CLS is one of them is the spec's resolution
C10. -/
def Obligations.FrameBufferWriters : Prop :=
  ∀ (i : Instr) (s t : State), exec i s = .next t → t.fb ≠ s.fb → i = .cls ∨ ∃ x y n, i = .drw x y n

/-- Only LD I, ADD I and LD F write the index register (spec/43_index_memory.md R156). That BCD, ST, LDM and DRW leave
I as it was is the spec's decision D13 (log entry 5). -/
def Obligations.IndexWriters : Prop :=
  ∀ (i : Instr) (s t : State), exec i s = .next t → t.I ≠ s.I →
    (∃ nnn, i = .ldI nnn) ∨ (∃ x, i = .addI x) ∨ ∃ x, i = .ldF x

/-- The depth cursor moves only by CALL, up by one from below 15, and by RET, down by one from above 0
(spec/10_state.md R25). -/
def Obligations.DepthWriters : Prop :=
  ∀ (i : Instr) (s t : State), exec i s = .next t →
    ((∃ nnn, i = .call nnn) → t.sp.val = s.sp.val + 1)
    ∧ (i = .ret → t.sp.val + 1 = s.sp.val)
    ∧ ((¬ ∃ nnn, i = .call nnn) → i ≠ .ret → t.sp = s.sp)

/-- VF changes only by the four flag writers or by an instruction whose destination Vx is VF; LDM never writes it
(spec/10_state.md R22). That DRW does not write VF is the spec's decision D10, that ADD I,Vx does not its decision D12
(log entry 5). -/
def Obligations.FlagWriters : Prop :=
  ∀ (i : Instr) (s t : State), exec i s = .next t → t.reg 15 ≠ s.reg 15 →
    (∃ x y, i = .addReg x y ∨ i = .subReg x y ∨ i = .shrReg x y ∨ i = .shlReg x y)
    ∨ (∃ kk, i = .ldImm 15 kk ∨ i = .addImm 15 kk ∨ i = .rnd 15 kk)
    ∨ ∃ y, i = .orReg 15 y ∨ i = .andReg 15 y ∨ i = .xorReg 15 y

/-- Exactly one draw by each executed RND and none by any other instruction (spec/10_state.md R38). The position in
the sequence is the model's own field (log entry 1). That RND draws once and nothing else draws is the spec's decision
D18. -/
def Obligations.DrawCount : Prop :=
  ∀ (i : Instr) (s t : State), exec i s = .next t →
    ((∃ x kk, i = .rnd x kk) → t.drawIndex = s.drawIndex + 1)
    ∧ ((¬ ∃ x kk, i = .rnd x kk) → t.drawIndex = s.drawIndex)

/-- The frame buffer and the stack entries above the cursor influence nothing else (spec/10_state.md R26, R34). That
DRW tells no register of the pixels it turned off, so that the frame buffer influences nothing, is the spec's decision
D10 (log entry 5). -/
def Obligations.HiddenStateUnused : Prop :=
  ∀ s s' : State, Alike s s' →
    (∀ t, step s = .next t → ∃ t', step s' = .next t' ∧ Alike t t')
    ∧ ∀ f, step s = .fault f → step s' = .fault f

/-- spec/70_reset_and_hazards.md R214: an unloaded machine runs 895 NOPs, each changing only the pc, and the 896th
step raises FetchOutOfRange(1790). That a NOP advances by 2 is the spec's decision D17, the fetch fault its decision
D7. The fault's name and info value are its decision D6, the state it leaves its decision D5, the reset values its
decision D21. -/
def Obligations.UnloadedRun : Prop :=
  (∀ k : Nat, k ≤ 895 → hostRun (List.replicate k .step) State.reset =
      (State.reset.setPc (BitVec.ofNat 16 (2 * k)), List.replicate k .ok))
  ∧ hostRun (List.replicate 896 .step) State.reset =
      (State.reset.setPc 1790#16, List.replicate 895 .ok ++ [.fault (.fetchOutOfRange 1790#16)])

/-- spec/70_reset_and_hazards.md R214, "runs off its end into zeroed memory", from every state: if all memory from the
pc on reads 0x00, the steps up to the end of memory are NOPs, each changing only the pc, and the next one raises
FetchOutOfRange. That a NOP advances by 2 is the spec's decision D17, the fetch fault its decision D7. That an odd pc
is fetched is its decision D2, the fault's name and info value its decision D6, the state it leaves its decision D5. -/
def Obligations.ZeroedMemoryRun : Prop :=
  ∀ s : State, (∀ a, s.pc.toNat ≤ a → a < 1791 → s.mem.read a = 0x00#8) →
    ∀ k : Nat, s.pc.toNat + 2 * k ≤ 1791 →
      hostRun (List.replicate k .step) s = (s.setPc (s.pc + BitVec.ofNat 16 (2 * k)), List.replicate k .ok)
      ∧ (1790 ≤ s.pc.toNat + 2 * k →
          hostRun (List.replicate (k + 1) .step) s = (s.setPc (s.pc + BitVec.ofNat 16 (2 * k)),
            List.replicate k .ok ++ [.fault (.fetchOutOfRange (s.pc + BitVec.ofNat 16 (2 * k)))]))

/-! ### Host operations -/

/-- Reset(), after any host operations (also after a fault), puts every component of the machine's state into its reset
value (spec/70_reset_and_hazards.md R210); that it does not reset the random source is the spec's decision D21. -/
def Obligations.HostResetResult : Prop :=
  ∀ (ops : List HostOp) (s : State),
    (hostRun (ops ++ [.reset]) s).1 = { State.reset with drawIndex := (hostRun ops s).1.drawIndex }

/-- spec/20_memory.md R66: HostWriteWord writes two bytes and nothing else, or is refused with no change
(the refusal is the spec's decision D19). -/
def Obligations.HostWriteWordResult : Prop :=
  ∀ (s : State) (p : Nat) (w : Word),
    (p ≤ 894 → s.mem.wf → ∃ t, hostApply (.writeWord p w) s = (t, .done)
      ∧ t.mem.read (2 * p) = w.extractLsb 15 8 ∧ t.mem.read (2 * p + 1) = w.extractLsb 7 0
      ∧ (∀ a, a ≠ 2 * p → a ≠ 2 * p + 1 → t.mem.read a = s.mem.read a) ∧ { t with mem := s.mem } = s)
    ∧ (894 < p → hostApply (.writeWord p w) s = (s, .refused))

/-- spec/10_state.md R37: HostSetKey sets one key flag and nothing else, or is refused with no change
(the refusal is the spec's decision D19). -/
def Obligations.HostSetKeyResult : Prop :=
  ∀ (s : State) (k : Nat) (down : Bool),
    (∀ j : Fin 16, k = j.val → ∃ t, hostApply (.setKey k down) s = (t, .done) ∧ t.keyDown j = down
      ∧ (∀ i, i ≠ j → t.keyDown i = s.keyDown i) ∧ { t with key := s.key } = s)
    ∧ (15 < k → hostApply (.setKey k down) s = (s, .refused))

/-- The frame-buffer read-out gives all 2048 pixels, row-major, and changes nothing (spec/10_state.md R33, R35). -/
def Obligations.FrameReadOut : Prop :=
  ∀ s : State, ∃ px : List Bool, hostApply .readFrame s = (s, .frame px) ∧ px.length = 2048
    ∧ ∀ (row : Fin 32) (col : Fin 64), px[64 * row.val + col.val]? = some (s.fb.pixel row col)
end

