-- ==== Sys2Proof/Laws/Decode.lean ====
section
/-! SUPPORT. The fields of a word and the words of the formats as numbers (spec/30_encoding.md R81, R82), so that
decoding and encoding are questions of arithmetic. -/

namespace Sys2Proof

/-! ### Fields as numbers -/

@[simp] theorem toNat_fieldF (w : Word) : (fieldF w).toNat = w.toNat / 4096 := by
  simp [fieldF, BitVec.extractLsb, Nat.shiftRight_eq_div_pow]; omega

@[simp] theorem val_fieldX (w : Word) : (fieldX w).val = w.toNat / 256 % 16 := by
  simp [fieldX, BitVec.extractLsb, Nat.shiftRight_eq_div_pow]

@[simp] theorem val_fieldY (w : Word) : (fieldY w).val = w.toNat / 16 % 16 := by
  simp [fieldY, BitVec.extractLsb, Nat.shiftRight_eq_div_pow]

@[simp] theorem val_fieldN (w : Word) : (fieldN w).val = w.toNat % 16 := by
  simp [fieldN, BitVec.extractLsb]

@[simp] theorem toNat_fieldS (w : Word) : (fieldS w).toNat = w.toNat % 16 := by
  simp [fieldS, BitVec.extractLsb]

@[simp] theorem toNat_fieldKK (w : Word) : (fieldKK w).toNat = w.toNat % 256 := by
  simp [fieldKK, BitVec.extractLsb]

@[simp] theorem toNat_fieldNNN (w : Word) : (fieldNNN w).toNat = w.toNat % 4096 := by
  simp [fieldNNN, BitVec.extractLsb]

@[simp] theorem toNat_highByte (w : Word) : (highByte w).toNat = w.toNat / 256 := by
  simp [highByte, BitVec.extractLsb, Nat.shiftRight_eq_div_pow]; omega

@[simp] theorem toNat_lowByte (w : Word) : (lowByte w).toNat = w.toNat % 256 := by
  simp [lowByte, BitVec.extractLsb]

/-! ### Words as numbers -/

theorem toNat_append_eq {m n : Nat} (a : BitVec m) (b : BitVec n) : (a ++ b).toNat = a.toNat * 2 ^ n + b.toNat := by
  rw [BitVec.toNat_append, ← Nat.shiftLeft_add_eq_or_of_lt b.isLt, Nat.shiftLeft_eq]

@[simp] theorem toNat_nibble (x : Fin 16) : (nibble x).toNat = x.val := rfl

@[simp] theorem toNat_wordOfBytes (hi lo : Byte) : (wordOfBytes hi lo).toNat = hi.toNat * 256 + lo.toNat :=
  toNat_append_eq hi lo

@[simp] theorem toNat_formatA (f : BitVec 4) (nnn : Addr12) :
    (formatA f nnn).toNat = f.toNat * 4096 + nnn.toNat := toNat_append_eq f nnn

@[simp] theorem toNat_formatK (f : BitVec 4) (x : Fin 16) (kk : Byte) :
    (formatK f x kk).toNat = f.toNat * 4096 + x.val * 256 + kk.toNat := by
  have h : (formatK f x kk).toNat = (f ++ nibble x).toNat * 256 + kk.toNat := toNat_append_eq (f ++ nibble x) kk
  rw [h, toNat_append_eq, toNat_nibble]; omega

@[simp] theorem toNat_formatR (f : BitVec 4) (x y : Fin 16) (s : BitVec 4) :
    (formatR f x y s).toNat = f.toNat * 4096 + x.val * 256 + y.val * 16 + s.toNat := by
  have h : (formatR f x y s).toNat = (f ++ nibble x ++ nibble y).toNat * 16 + s.toNat :=
    toNat_append_eq (f ++ nibble x ++ nibble y) s
  rw [h, toNat_append_eq, toNat_append_eq, toNat_nibble, toNat_nibble]; omega

/-! ### The fields of each format -/

/-- Equal as numbers, equal. -/
theorem word_ext {n : Nat} {a b : BitVec n} (h : a.toNat = b.toNat) : a = b := BitVec.eq_of_toNat_eq h

@[simp] theorem fieldF_formatA (f : BitVec 4) (nnn : Addr12) : fieldF (formatA f nnn) = f :=
  word_ext (by simp only [toNat_fieldF, toNat_formatA]; omega)

@[simp] theorem fieldNNN_formatA (f : BitVec 4) (nnn : Addr12) : fieldNNN (formatA f nnn) = nnn :=
  word_ext (by simp only [toNat_fieldNNN, toNat_formatA]; omega)

@[simp] theorem fieldF_formatK (f : BitVec 4) (x : Fin 16) (kk : Byte) : fieldF (formatK f x kk) = f :=
  word_ext (by simp only [toNat_fieldF, toNat_formatK]; omega)

@[simp] theorem fieldX_formatK (f : BitVec 4) (x : Fin 16) (kk : Byte) : fieldX (formatK f x kk) = x :=
  Fin.ext (by simp only [val_fieldX, toNat_formatK]; omega)

@[simp] theorem fieldKK_formatK (f : BitVec 4) (x : Fin 16) (kk : Byte) : fieldKK (formatK f x kk) = kk :=
  word_ext (by simp only [toNat_fieldKK, toNat_formatK]; omega)

@[simp] theorem fieldF_formatR (f : BitVec 4) (x y : Fin 16) (s : BitVec 4) : fieldF (formatR f x y s) = f :=
  word_ext (by simp only [toNat_fieldF, toNat_formatR]; omega)

@[simp] theorem fieldX_formatR (f : BitVec 4) (x y : Fin 16) (s : BitVec 4) : fieldX (formatR f x y s) = x :=
  Fin.ext (by simp only [val_fieldX, toNat_formatR]; omega)

@[simp] theorem fieldY_formatR (f : BitVec 4) (x y : Fin 16) (s : BitVec 4) : fieldY (formatR f x y s) = y :=
  Fin.ext (by simp only [val_fieldY, toNat_formatR]; omega)

@[simp] theorem fieldS_formatR (f : BitVec 4) (x y : Fin 16) (s : BitVec 4) : fieldS (formatR f x y s) = s :=
  word_ext (by simp only [toNat_fieldS, toNat_formatR]; omega)

@[simp] theorem fieldN_formatR (f : BitVec 4) (x y n : Fin 16) : fieldN (formatR f x y (nibble n)) = n :=
  Fin.ext (by simp only [val_fieldN, toNat_formatR, toNat_nibble]; omega)

/-! ### Bytes -/

@[simp] theorem wordOfBytes_bytes (w : Word) : wordOfBytes (highByte w) (lowByte w) = w :=
  word_ext (by simp only [toNat_wordOfBytes, toNat_highByte, toNat_lowByte]; omega)

/-! ### Words as formats, and the masks of the table (R84) -/

/-- Every word is its four fields. -/
theorem eq_formatR (w : Word) : w = formatR (fieldF w) (fieldX w) (fieldY w) (fieldS w) :=
  word_ext (by simp only [toNat_formatR, toNat_fieldF, val_fieldX, val_fieldY, toNat_fieldS]; omega)

/-- Every word is its family, register and low byte. -/
theorem eq_formatK (w : Word) : w = formatK (fieldF w) (fieldX w) (fieldKK w) :=
  word_ext (by simp only [toNat_formatK, toNat_fieldF, val_fieldX, toNat_fieldKK]; omega)

/-- Masking every field but the family. -/
theorem mask_formatA (f : BitVec 4) (nnn : Addr12) : formatA f nnn &&& 0xF000#16 = formatA f 0#12 := by
  change (f ++ nnn) &&& (BitVec.allOnes 4 ++ 0#12) = f ++ 0#12
  simp only [BitVec.and_append, BitVec.and_allOnes, BitVec.and_zero]

/-- Masking the register and the immediate. -/
theorem mask_formatK (f : BitVec 4) (x : Fin 16) (kk : Byte) : formatK f x kk &&& 0xF000#16 = formatK f 0 0#8 := by
  change (f ++ nibble x ++ kk) &&& (BitVec.allOnes 4 ++ 0#4 ++ 0#8) = f ++ 0#4 ++ 0#8
  simp only [BitVec.and_append, BitVec.and_allOnes, BitVec.and_zero]

/-- Masking the register, keeping the eight bits of the sub-key. -/
theorem mask_formatX (f : BitVec 4) (x : Fin 16) (kk : Byte) : formatK f x kk &&& 0xF0FF#16 = formatK f 0 kk := by
  change (f ++ nibble x ++ kk) &&& (BitVec.allOnes 4 ++ 0#4 ++ BitVec.allOnes 8) = f ++ 0#4 ++ kk
  simp only [BitVec.and_append, BitVec.and_allOnes, BitVec.and_zero]

/-- Masking both registers and the low nibble. -/
theorem mask_formatR (f : BitVec 4) (x y : Fin 16) (s : BitVec 4) :
    formatR f x y s &&& 0xF000#16 = formatR f 0 0 0#4 := by
  change (f ++ nibble x ++ nibble y ++ s) &&& (BitVec.allOnes 4 ++ 0#4 ++ 0#4 ++ 0#4) = f ++ 0#4 ++ 0#4 ++ 0#4
  simp only [BitVec.and_append, BitVec.and_allOnes, BitVec.and_zero]

/-- Masking both registers, keeping the low nibble, the sub-key of family 8. -/
theorem mask_formatS (f : BitVec 4) (x y : Fin 16) (s : BitVec 4) :
    formatR f x y s &&& 0xF00F#16 = formatR f 0 0 s := by
  change (f ++ nibble x ++ nibble y ++ s) &&& (BitVec.allOnes 4 ++ 0#4 ++ 0#4 ++ BitVec.allOnes 4)
    = f ++ 0#4 ++ 0#4 ++ s
  simp only [BitVec.and_append, BitVec.and_allOnes, BitVec.and_zero]

/-- A row that compares the family. -/
theorem rowSelects_family (w v : Word) : rowSelects (0xF000#16, v) w = true ↔ w.toNat / 4096 * 4096 = v.toNat := by
  have h : (w &&& 0xF000#16).toNat = w.toNat / 4096 * 4096 := by
    conv_lhs => rw [eq_formatR w, mask_formatR]
    simp
  rw [rowSelects, beq_iff_eq, ← BitVec.toNat_inj, h]

/-- A row that compares the family and the low nibble. -/
theorem rowSelects_nibble (w v : Word) :
    rowSelects (0xF00F#16, v) w = true ↔ w.toNat / 4096 * 4096 + w.toNat % 16 = v.toNat := by
  have h : (w &&& 0xF00F#16).toNat = w.toNat / 4096 * 4096 + w.toNat % 16 := by
    conv_lhs => rw [eq_formatR w, mask_formatS]
    simp
  rw [rowSelects, beq_iff_eq, ← BitVec.toNat_inj, h]

/-- A row that compares the family and the low byte. -/
theorem rowSelects_byte (w v : Word) :
    rowSelects (0xF0FF#16, v) w = true ↔ w.toNat / 4096 * 4096 + w.toNat % 256 = v.toNat := by
  have h : (w &&& 0xF0FF#16).toNat = w.toNat / 4096 * 4096 + w.toNat % 256 := by
    conv_lhs => rw [eq_formatK w, mask_formatX]
    simp
  rw [rowSelects, beq_iff_eq, ← BitVec.toNat_inj, h]

/-- A row that compares the whole word. -/
theorem rowSelects_word (w v : Word) : rowSelects (0xFFFF#16, v) w = true ↔ w.toNat = v.toNat := by
  have h : w &&& 0xFFFF#16 = w := BitVec.and_allOnes
  rw [rowSelects, beq_iff_eq, h, BitVec.toNat_inj]

/-! ### The NOP space as numbers (R86) -/

theorem nopSpace_iff (w : Word) : nopSpace w = true ↔
    (w.toNat / 4096 = 0 ∧ w.toNat ≠ 0xE0 ∧ w.toNat ≠ 0xEE)
    ∨ (w.toNat / 4096 = 8 ∧ w.toNat % 16 ∈ [0, 7, 8, 9, 0xA, 0xB, 0xC, 0xD, 0xF])
    ∨ (w.toNat / 4096 = 0xE ∧ w.toNat % 256 ≠ 0x9E ∧ w.toNat % 256 ≠ 0xA1)
    ∨ (w.toNat / 4096 = 0xF ∧ w.toNat % 256 ≠ 0x1E ∧ w.toNat % 256 ≠ 0x29 ∧ w.toNat % 256 ≠ 0x33
        ∧ w.toNat % 256 ≠ 0x55 ∧ w.toNat % 256 ≠ 0x65) := by
  simp only [nopSpace, Bool.or_eq_true, Bool.and_eq_true, beq_iff_eq, bne_iff_ne, ne_eq, List.contains_iff_mem,
    and_assoc, or_assoc]

/-! ### The decoder -/

/-- A word of a family other than 0 is neither CLS nor RET, so its family decides. -/
theorem decodeWord_of_family {w : Word} (h : fieldF w ≠ 0#4) : decodeWord w = decodeFamily w := by
  rw [decodeWord, if_neg, if_neg] <;> rintro rfl <;> exact h (by decide)

end Sys2Proof
end

