-- ==== Sys2Proof/Laws/Memory.lean ====
section
/-! SUPPORT. Main memory: a read after a write, and that every operation keeps the canonical form
(spec/20_memory.md R51, R60, R63). -/

namespace Sys2Proof.Machine

/-! ### One byte -/

@[simp] theorem Memory.read_nil (a : Nat) : Memory.read [] a = 0#8 := rfl

/-- A list whose addresses all lie above `a` reads as unlisted at `a`. -/
theorem Memory.read_of_lt {m : Memory} {a : Nat} (h : ∀ c ∈ m, a < c.1) : m.read a = 0#8 := by
  induction m with
  | nil => rfl
  | cons c rest ih =>
    have hc := h c (by simp)
    simp only [Memory.read, Nat.ne_of_gt hc, if_false]
    exact ih fun d hd => h d (by simp [hd])

theorem Memory.read_cons_self {m : Memory} {a : Nat} (b : Byte) (h : ∀ c ∈ m, a < c.1) :
    (Memory.cons a b m).read a = b := by
  unfold Memory.cons
  split
  · next hb => rw [Memory.read_of_lt h, hb]
  · simp [Memory.read]

theorem Memory.read_cons_ne {m : Memory} {a a' : Nat} (b : Byte) (h : a' ≠ a) :
    (Memory.cons a b m).read a' = m.read a' := by
  unfold Memory.cons
  split <;> simp [Memory.read, h.symm]

/-- Writing a byte leaves every other byte alone, in every memory. -/
theorem Memory.read_write_ne {a a' : Nat} (m : Memory) (b : Byte) (h : a' ≠ a) :
    (m.write a b).read a' = m.read a' := by
  induction m with
  | nil => simp [Memory.write, Memory.read_cons_ne b h]
  | cons c rest ih =>
    obtain ⟨k, c⟩ := c
    simp only [Memory.write]
    split
    · simp only [Memory.read, ih]
    · split
      · next hk => subst hk; rw [Memory.read_cons_ne b h]; simp [Memory.read, h.symm]
      · rw [Memory.read_cons_ne b h]

/-- Reading where a byte was written gives that byte, in a canonical memory. -/
theorem Memory.read_write_self {m : Memory} (hm : m.wf) (a : Nat) (b : Byte) : (m.write a b).read a = b := by
  induction m with
  | nil => exact Memory.read_cons_self b (by simp)
  | cons c rest ih =>
    obtain ⟨k, c⟩ := c
    have hlt := (List.pairwise_cons.1 hm.1).1
    have hrest : Memory.wf rest := ⟨(List.pairwise_cons.1 hm.1).2, fun d hd => hm.2 d (by simp [hd])⟩
    simp only [Memory.write]
    split
    · next hk => simp [Memory.read, Nat.ne_of_lt hk, ih hrest]
    · split
      · next hk => subst hk; exact Memory.read_cons_self b hlt
      · next h1 h2 =>
        refine Memory.read_cons_self b fun d hd => ?_
        rcases List.mem_cons.1 hd with rfl | hd
        · simp only; omega
        · have := hlt d hd; simp only at this; omega

theorem Memory.read_write {m : Memory} (hm : m.wf) (a a' : Nat) (b : Byte) :
    (m.write a b).read a' = if a' = a then b else m.read a' := by
  split
  · next h => subst h; exact Memory.read_write_self hm a' b
  · next h => exact Memory.read_write_ne m b h

/-! ### The canonical form is kept -/

theorem Memory.mem_cons_of {m : Memory} {a : Nat} {b : Byte} {c : Host.Cell} (h : c ∈ Memory.cons a b m) :
    c = (a, b) ∧ b ≠ 0#8 ∨ c ∈ m := by
  unfold Memory.cons at h
  split at h
  · exact .inr h
  · next hb => exact (List.mem_cons.1 h).imp (⟨·, hb⟩) id

/-- The cells of a memory after a write: the new one, or one that was there. -/
theorem Memory.mem_write_of {m : Memory} {a : Nat} {b : Byte} {c : Host.Cell} (h : c ∈ m.write a b) :
    c = (a, b) ∧ b ≠ 0#8 ∨ c ∈ m := by
  induction m with
  | nil => exact Memory.mem_cons_of h
  | cons d rest ih =>
    obtain ⟨k, d⟩ := d
    simp only [Memory.write] at h
    split at h
    · rcases List.mem_cons.1 h with rfl | h
      · exact .inr (by simp)
      · exact (ih h).imp_right (List.mem_cons_of_mem _)
    · split at h
      · exact (Memory.mem_cons_of h).imp_right (List.mem_cons_of_mem _)
      · exact Memory.mem_cons_of h

theorem Memory.pairwise_cons {m : Memory} {a : Nat} {b : Byte} (h : m.Pairwise (fun c d => c.1 < d.1))
    (ha : ∀ c ∈ m, a < c.1) : (Memory.cons a b m).Pairwise (fun c d => c.1 < d.1) := by
  unfold Memory.cons
  split
  · exact h
  · exact List.pairwise_cons.2 ⟨ha, h⟩

theorem Memory.pairwise_write {m : Memory} (a : Nat) (b : Byte) (h : m.Pairwise (fun c d => c.1 < d.1)) :
    (m.write a b).Pairwise (fun c d => c.1 < d.1) := by
  induction m with
  | nil => exact Memory.pairwise_cons h (by simp)
  | cons c rest ih =>
    obtain ⟨k, c⟩ := c
    have hlt := (List.pairwise_cons.1 h).1
    have hrest := (List.pairwise_cons.1 h).2
    simp only [Memory.write]
    split
    · next hk =>
      refine List.pairwise_cons.2 ⟨fun d hd => ?_, ih hrest⟩
      rcases Memory.mem_write_of hd with ⟨rfl, -⟩ | hd
      · exact hk
      · exact hlt d hd
    · split
      · next hk => subst hk; exact Memory.pairwise_cons hrest hlt
      · next h1 h2 =>
        refine Memory.pairwise_cons h fun d hd => ?_
        rcases List.mem_cons.1 hd with rfl | hd
        · simp only; omega
        · have := hlt d hd; simp only at this; omega

/-- A write at an existing address keeps the canonical form. -/
theorem Memory.wf_write {m : Memory} (hm : m.wf) {a : Nat} (ha : a < 1791) (b : Byte) : (m.write a b).wf := by
  refine ⟨Memory.pairwise_write a b hm.1, fun c hc => ?_⟩
  rcases Memory.mem_write_of hc with ⟨rfl, hb⟩ | hc
  · exact ⟨ha, hb⟩
  · exact hm.2 c hc

/-! ### Several bytes -/

theorem Memory.wf_writeBytes {m : Memory} (hm : m.wf) {a : Nat} {bytes : List Byte}
    (h : bytes = [] ∨ a + bytes.length ≤ 1791) : (m.writeBytes a bytes).wf := by
  induction bytes generalizing m a with
  | nil => exact hm
  | cons b rest ih =>
    simp only [List.length_cons, reduceCtorEq, false_or] at h
    exact ih (Memory.wf_write hm (by omega) b) (.inr (by omega))

theorem Memory.wf_writeWord {m : Memory} (hm : m.wf) {a : Nat} (ha : a + 1 < 1791) (w : Word) :
    (m.writeWord a w).wf :=
  Memory.wf_writeBytes hm (.inr (by simp only [List.length_cons, List.length_nil]; omega))

/-- Writing bytes leaves every byte outside them alone, in every memory. -/
theorem Memory.read_writeBytes_outside {a a' : Nat} (m : Memory) (bytes : List Byte)
    (h : ¬(a ≤ a' ∧ a' < a + bytes.length)) : (m.writeBytes a bytes).read a' = m.read a' := by
  induction bytes generalizing m a with
  | nil => rfl
  | cons b rest ih =>
    simp only [List.length_cons] at h
    rw [Memory.writeBytes, ih _ (by omega), Memory.read_write_ne _ _ (by omega)]

/-- Reading a written byte gives it, in a canonical memory. -/
theorem Memory.read_writeBytes {m : Memory} (hm : m.wf) {a k : Nat} {bytes : List Byte}
    (ha : a + bytes.length ≤ 1791) (hk : k < bytes.length) : (m.writeBytes a bytes).read (a + k) = bytes[k] := by
  induction bytes generalizing m a k with
  | nil => simp at hk
  | cons b rest ih =>
    simp only [List.length_cons] at ha hk
    rw [Memory.writeBytes]
    cases k with
    | zero =>
      rw [Memory.read_writeBytes_outside _ _ (by omega)]
      simpa using Memory.read_write_self hm a b
    | succ k =>
      have := ih (Memory.wf_write hm (a := a) (by omega) b) (a := a + 1) (k := k) (by omega) (by omega)
      simpa [Nat.add_assoc, Nat.add_comm 1 k] using this

@[simp] theorem Memory.length_readBytes (m : Memory) (a n : Nat) : (m.readBytes a n).length = n := by
  induction n generalizing a with
  | zero => rfl
  | succ n ih => simp [Memory.readBytes, ih]

theorem Memory.getElem_readBytes (m : Memory) {a n k : Nat} (h : k < (m.readBytes a n).length) :
    (m.readBytes a n)[k] = m.read (a + k) := by
  induction n generalizing a k with
  | zero => simp [Memory.readBytes] at h
  | succ n ih =>
    cases k with
    | zero => rfl
    | succ k => simp [Memory.readBytes, ih, Nat.add_assoc, Nat.add_comm 1 k]

end Sys2Proof.Machine
end

