-- ==== Sys2Proof/Laws/State.lean ====
section
/-! SUPPORT. One lemma per field per update of the state, and the accessors over the updates. -/

namespace Sys2Proof.Machine

/-! ### The parameters as numerals (spec/00_scope.md R5) -/

@[simp] theorem memBytes_eq : Config.memBytes = 1791 := rfl
@[simp] theorem nKeys_eq : Config.nKeys = 16 := rfl
@[simp] theorem fbW_eq : Config.fbW = 64 := rfl
@[simp] theorem fbH_eq : Config.fbH = 32 := rfl
@[simp] theorem spMax_eq : Config.spMax = 15 := rfl
@[simp] theorem pcStep_eq : Config.pcStep = 2#16 := rfl
@[simp] theorem codeAddrScale_eq : Config.codeAddrScale = 1 := rfl
@[simp] theorem unlisted_eq : Config.unlisted = 0#8 := rfl

/-! ### setMem -/

@[simp] theorem setMem_mem (s : State) (m : Memory) : (s.setMem m).mem = m := rfl
@[simp] theorem setMem_V (s : State) (m : Memory) : (s.setMem m).V = s.V := rfl
@[simp] theorem setMem_I (s : State) (m : Memory) : (s.setMem m).I = s.I := rfl
@[simp] theorem setMem_stack (s : State) (m : Memory) : (s.setMem m).stack = s.stack := rfl
@[simp] theorem setMem_sp (s : State) (m : Memory) : (s.setMem m).sp = s.sp := rfl
@[simp] theorem setMem_fb (s : State) (m : Memory) : (s.setMem m).fb = s.fb := rfl
@[simp] theorem setMem_key (s : State) (m : Memory) : (s.setMem m).key = s.key := rfl
@[simp] theorem setMem_drawIndex (s : State) (m : Memory) : (s.setMem m).drawIndex = s.drawIndex := rfl
@[simp] theorem setMem_reg (s : State) (m : Memory) (r : Reg) : (s.setMem m).reg r = s.reg r := rfl
@[simp] theorem setMem_entry (s : State) (m : Memory) (j : Fin 16) : (s.setMem m).entry j = s.entry j := rfl
@[simp] theorem setMem_pc (s : State) (m : Memory) : (s.setMem m).pc = s.pc := rfl
@[simp] theorem setMem_keyDown (s : State) (m : Memory) (j : Fin 16) : (s.setMem m).keyDown j = s.keyDown j := rfl

/-! ### setV -/

@[simp] theorem setV_mem (s : State) (v : Vector Byte 16) : (s.setV v).mem = s.mem := rfl
@[simp] theorem setV_V (s : State) (v : Vector Byte 16) : (s.setV v).V = v := rfl
@[simp] theorem setV_I (s : State) (v : Vector Byte 16) : (s.setV v).I = s.I := rfl
@[simp] theorem setV_stack (s : State) (v : Vector Byte 16) : (s.setV v).stack = s.stack := rfl
@[simp] theorem setV_sp (s : State) (v : Vector Byte 16) : (s.setV v).sp = s.sp := rfl
@[simp] theorem setV_fb (s : State) (v : Vector Byte 16) : (s.setV v).fb = s.fb := rfl
@[simp] theorem setV_key (s : State) (v : Vector Byte 16) : (s.setV v).key = s.key := rfl
@[simp] theorem setV_drawIndex (s : State) (v : Vector Byte 16) : (s.setV v).drawIndex = s.drawIndex := rfl
@[simp] theorem setV_entry (s : State) (v : Vector Byte 16) (j : Fin 16) : (s.setV v).entry j = s.entry j := rfl
@[simp] theorem setV_pc (s : State) (v : Vector Byte 16) : (s.setV v).pc = s.pc := rfl
@[simp] theorem setV_keyDown (s : State) (v : Vector Byte 16) (j : Fin 16) : (s.setV v).keyDown j = s.keyDown j := rfl

/-! ### setReg -/

@[simp] theorem setReg_mem (s : State) (x : Reg) (b : Byte) : (s.setReg x b).mem = s.mem := rfl
@[simp] theorem setReg_V (s : State) (x : Reg) (b : Byte) : (s.setReg x b).V = s.V.set x b := rfl
@[simp] theorem setReg_I (s : State) (x : Reg) (b : Byte) : (s.setReg x b).I = s.I := rfl
@[simp] theorem setReg_stack (s : State) (x : Reg) (b : Byte) : (s.setReg x b).stack = s.stack := rfl
@[simp] theorem setReg_sp (s : State) (x : Reg) (b : Byte) : (s.setReg x b).sp = s.sp := rfl
@[simp] theorem setReg_fb (s : State) (x : Reg) (b : Byte) : (s.setReg x b).fb = s.fb := rfl
@[simp] theorem setReg_key (s : State) (x : Reg) (b : Byte) : (s.setReg x b).key = s.key := rfl
@[simp] theorem setReg_drawIndex (s : State) (x : Reg) (b : Byte) : (s.setReg x b).drawIndex = s.drawIndex := rfl
@[simp] theorem setReg_entry (s : State) (x : Reg) (b : Byte) (j : Fin 16) : (s.setReg x b).entry j = s.entry j := rfl
@[simp] theorem setReg_pc (s : State) (x : Reg) (b : Byte) : (s.setReg x b).pc = s.pc := rfl
@[simp] theorem setReg_keyDown (s : State) (x : Reg) (b : Byte) (j : Fin 16) : (s.setReg x b).keyDown j = s.keyDown j := rfl

/-! ### setI -/

@[simp] theorem setI_mem (s : State) (v : Word) : (s.setI v).mem = s.mem := rfl
@[simp] theorem setI_V (s : State) (v : Word) : (s.setI v).V = s.V := rfl
@[simp] theorem setI_I (s : State) (v : Word) : (s.setI v).I = v := rfl
@[simp] theorem setI_stack (s : State) (v : Word) : (s.setI v).stack = s.stack := rfl
@[simp] theorem setI_sp (s : State) (v : Word) : (s.setI v).sp = s.sp := rfl
@[simp] theorem setI_fb (s : State) (v : Word) : (s.setI v).fb = s.fb := rfl
@[simp] theorem setI_key (s : State) (v : Word) : (s.setI v).key = s.key := rfl
@[simp] theorem setI_drawIndex (s : State) (v : Word) : (s.setI v).drawIndex = s.drawIndex := rfl
@[simp] theorem setI_reg (s : State) (v : Word) (r : Reg) : (s.setI v).reg r = s.reg r := rfl
@[simp] theorem setI_entry (s : State) (v : Word) (j : Fin 16) : (s.setI v).entry j = s.entry j := rfl
@[simp] theorem setI_pc (s : State) (v : Word) : (s.setI v).pc = s.pc := rfl
@[simp] theorem setI_keyDown (s : State) (v : Word) (j : Fin 16) : (s.setI v).keyDown j = s.keyDown j := rfl

/-! ### setPc -/

@[simp] theorem setPc_mem (s : State) (t : Word) : (s.setPc t).mem = s.mem := rfl
@[simp] theorem setPc_V (s : State) (t : Word) : (s.setPc t).V = s.V := rfl
@[simp] theorem setPc_I (s : State) (t : Word) : (s.setPc t).I = s.I := rfl
@[simp] theorem setPc_stack (s : State) (t : Word) : (s.setPc t).stack = s.stack.set s.sp t := rfl
@[simp] theorem setPc_sp (s : State) (t : Word) : (s.setPc t).sp = s.sp := rfl
@[simp] theorem setPc_fb (s : State) (t : Word) : (s.setPc t).fb = s.fb := rfl
@[simp] theorem setPc_key (s : State) (t : Word) : (s.setPc t).key = s.key := rfl
@[simp] theorem setPc_drawIndex (s : State) (t : Word) : (s.setPc t).drawIndex = s.drawIndex := rfl
@[simp] theorem setPc_reg (s : State) (t : Word) (r : Reg) : (s.setPc t).reg r = s.reg r := rfl
@[simp] theorem setPc_keyDown (s : State) (t : Word) (j : Fin 16) : (s.setPc t).keyDown j = s.keyDown j := rfl

/-! ### setSp -/

@[simp] theorem setSp_mem (s : State) (k : Fin 16) : (s.setSp k).mem = s.mem := rfl
@[simp] theorem setSp_V (s : State) (k : Fin 16) : (s.setSp k).V = s.V := rfl
@[simp] theorem setSp_I (s : State) (k : Fin 16) : (s.setSp k).I = s.I := rfl
@[simp] theorem setSp_stack (s : State) (k : Fin 16) : (s.setSp k).stack = s.stack := rfl
@[simp] theorem setSp_sp (s : State) (k : Fin 16) : (s.setSp k).sp = k := rfl
@[simp] theorem setSp_fb (s : State) (k : Fin 16) : (s.setSp k).fb = s.fb := rfl
@[simp] theorem setSp_key (s : State) (k : Fin 16) : (s.setSp k).key = s.key := rfl
@[simp] theorem setSp_drawIndex (s : State) (k : Fin 16) : (s.setSp k).drawIndex = s.drawIndex := rfl
@[simp] theorem setSp_reg (s : State) (k : Fin 16) (r : Reg) : (s.setSp k).reg r = s.reg r := rfl
@[simp] theorem setSp_entry (s : State) (k : Fin 16) (j : Fin 16) : (s.setSp k).entry j = s.entry j := rfl
@[simp] theorem setSp_keyDown (s : State) (k : Fin 16) (j : Fin 16) : (s.setSp k).keyDown j = s.keyDown j := rfl

/-! ### setFb -/

@[simp] theorem setFb_mem (s : State) (fb : FrameBuffer) : (s.setFb fb).mem = s.mem := rfl
@[simp] theorem setFb_V (s : State) (fb : FrameBuffer) : (s.setFb fb).V = s.V := rfl
@[simp] theorem setFb_I (s : State) (fb : FrameBuffer) : (s.setFb fb).I = s.I := rfl
@[simp] theorem setFb_stack (s : State) (fb : FrameBuffer) : (s.setFb fb).stack = s.stack := rfl
@[simp] theorem setFb_sp (s : State) (fb : FrameBuffer) : (s.setFb fb).sp = s.sp := rfl
@[simp] theorem setFb_fb (s : State) (fb : FrameBuffer) : (s.setFb fb).fb = fb := rfl
@[simp] theorem setFb_key (s : State) (fb : FrameBuffer) : (s.setFb fb).key = s.key := rfl
@[simp] theorem setFb_drawIndex (s : State) (fb : FrameBuffer) : (s.setFb fb).drawIndex = s.drawIndex := rfl
@[simp] theorem setFb_reg (s : State) (fb : FrameBuffer) (r : Reg) : (s.setFb fb).reg r = s.reg r := rfl
@[simp] theorem setFb_entry (s : State) (fb : FrameBuffer) (j : Fin 16) : (s.setFb fb).entry j = s.entry j := rfl
@[simp] theorem setFb_pc (s : State) (fb : FrameBuffer) : (s.setFb fb).pc = s.pc := rfl
@[simp] theorem setFb_keyDown (s : State) (fb : FrameBuffer) (j : Fin 16) : (s.setFb fb).keyDown j = s.keyDown j := rfl

/-! ### setKey -/

@[simp] theorem setKey_mem (s : State) (k : Fin 16) (down : Bool) : (s.setKey k down).mem = s.mem := rfl
@[simp] theorem setKey_V (s : State) (k : Fin 16) (down : Bool) : (s.setKey k down).V = s.V := rfl
@[simp] theorem setKey_I (s : State) (k : Fin 16) (down : Bool) : (s.setKey k down).I = s.I := rfl
@[simp] theorem setKey_stack (s : State) (k : Fin 16) (down : Bool) : (s.setKey k down).stack = s.stack := rfl
@[simp] theorem setKey_sp (s : State) (k : Fin 16) (down : Bool) : (s.setKey k down).sp = s.sp := rfl
@[simp] theorem setKey_fb (s : State) (k : Fin 16) (down : Bool) : (s.setKey k down).fb = s.fb := rfl
@[simp] theorem setKey_key (s : State) (k : Fin 16) (down : Bool) : (s.setKey k down).key = s.key.set k down := rfl
@[simp] theorem setKey_drawIndex (s : State) (k : Fin 16) (down : Bool) : (s.setKey k down).drawIndex = s.drawIndex := rfl
@[simp] theorem setKey_reg (s : State) (k : Fin 16) (down : Bool) (r : Reg) : (s.setKey k down).reg r = s.reg r := rfl
@[simp] theorem setKey_entry (s : State) (k : Fin 16) (down : Bool) (j : Fin 16) : (s.setKey k down).entry j = s.entry j := rfl
@[simp] theorem setKey_pc (s : State) (k : Fin 16) (down : Bool) : (s.setKey k down).pc = s.pc := rfl

/-! ### drawn -/

@[simp] theorem drawn_mem (s : State) : s.drawn.mem = s.mem := rfl
@[simp] theorem drawn_V (s : State) : s.drawn.V = s.V := rfl
@[simp] theorem drawn_I (s : State) : s.drawn.I = s.I := rfl
@[simp] theorem drawn_stack (s : State) : s.drawn.stack = s.stack := rfl
@[simp] theorem drawn_sp (s : State) : s.drawn.sp = s.sp := rfl
@[simp] theorem drawn_fb (s : State) : s.drawn.fb = s.fb := rfl
@[simp] theorem drawn_key (s : State) : s.drawn.key = s.key := rfl
@[simp] theorem drawn_drawIndex (s : State) : s.drawn.drawIndex = s.drawIndex + 1 := rfl
@[simp] theorem drawn_reg (s : State) (r : Reg) : s.drawn.reg r = s.reg r := rfl
@[simp] theorem drawn_entry (s : State) (j : Fin 16) : s.drawn.entry j = s.entry j := rfl
@[simp] theorem drawn_pc (s : State) : s.drawn.pc = s.pc := rfl
@[simp] theorem drawn_keyDown (s : State) (j : Fin 16) : s.drawn.keyDown j = s.keyDown j := rfl

/-! ### withKeys -/

@[simp] theorem withKeys_mem (s : State) (key : Vector Bool 16) : (s.withKeys key).mem = s.mem := rfl
@[simp] theorem withKeys_V (s : State) (key : Vector Bool 16) : (s.withKeys key).V = s.V := rfl
@[simp] theorem withKeys_I (s : State) (key : Vector Bool 16) : (s.withKeys key).I = s.I := rfl
@[simp] theorem withKeys_stack (s : State) (key : Vector Bool 16) : (s.withKeys key).stack = s.stack := rfl
@[simp] theorem withKeys_sp (s : State) (key : Vector Bool 16) : (s.withKeys key).sp = s.sp := rfl
@[simp] theorem withKeys_fb (s : State) (key : Vector Bool 16) : (s.withKeys key).fb = s.fb := rfl
@[simp] theorem withKeys_drawIndex (s : State) (key : Vector Bool 16) : (s.withKeys key).drawIndex = s.drawIndex := rfl
@[simp] theorem withKeys_key (s : State) (key : Vector Bool 16) : (s.withKeys key).key = key := rfl
@[simp] theorem withKeys_reg (s : State) (key : Vector Bool 16) (r : Reg) : (s.withKeys key).reg r = s.reg r := rfl
@[simp] theorem withKeys_entry (s : State) (key : Vector Bool 16) (j : Fin 16) :
    (s.withKeys key).entry j = s.entry j := rfl
@[simp] theorem withKeys_pc (s : State) (key : Vector Bool 16) : (s.withKeys key).pc = s.pc := rfl

/-! ### Accessors over the update they read -/

@[simp] theorem setReg_reg (s : State) (x r : Reg) (b : Byte) :
    (s.setReg x b).reg r = if r = x then b else s.reg r := by
  simp [State.reg, State.setReg, Vector.getElem_set, Fin.ext_iff, eq_comm]

@[simp] theorem setV_reg (s : State) (v : Vector Byte 16) (r : Reg) : (s.setV v).reg r = v[r] := rfl

@[simp] theorem setPc_entry (s : State) (t : Word) (k : Fin 16) :
    (s.setPc t).entry k = if k = s.sp then t else s.entry k := by
  simp [State.entry, State.setPc, Vector.getElem_set, Fin.ext_iff, eq_comm]

@[simp] theorem setPc_pc (s : State) (t : Word) : (s.setPc t).pc = t := by
  simp [State.pc]

@[simp] theorem setSp_pc (s : State) (k : Fin 16) : (s.setSp k).pc = s.entry k := rfl

@[simp] theorem setKey_keyDown (s : State) (k j : Fin 16) (down : Bool) :
    (s.setKey k down).keyDown j = if j = k then down else s.keyDown j := by
  simp [State.keyDown, State.setKey, Vector.getElem_set, Fin.ext_iff, eq_comm]

theorem reg_ext {s t : State} (h : ∀ r, t.reg r = s.reg r) : t.V = s.V :=
  Vector.ext fun k hk => h ⟨k, hk⟩

theorem setPc_self (s : State) : s.setPc s.pc = s := by
  simp [State.setPc, State.pc, State.entry]

/-! ### Derived updates, in terms of the plain ones -/

@[simp] theorem setFlag_eq (s : State) (b : Byte) : s.setFlag b = s.setReg 15 b := rfl

@[simp] theorem advance_eq (s : State) : s.advance = s.setPc (s.pc + 2#16) := rfl

@[simp] theorem skipIf_eq (s : State) (cond : Bool) :
    s.skipIf cond = s.setPc (if cond = true then s.pc + 4#16 else s.pc + 2#16) := by
  have four : s.pc + 2#16 + 2#16 = s.pc + 4#16 := by rw [BitVec.add_assoc]; rfl
  cases cond <;> simp [State.skipIf, four]

@[simp] theorem storeData_eq (s : State) (bytes : List Byte) :
    s.storeData bytes = s.setMem (s.mem.writeBytes s.I.toNat bytes) := rfl

@[simp] theorem dataBytes_eq (s : State) (c : Nat) : s.dataBytes c = s.mem.readBytes s.I.toNat c := rfl

/-! ### The frame of one update -/

theorem frame_setPc (s : State) (t : Word) : Frame {} s (s.setPc t) := by
  refine ⟨fun _ _ => rfl, fun _ => rfl, fun _ _ => rfl, fun _ => rfl, fun _ => rfl, fun k hk _ => ?_, rfl, fun _ => rfl⟩
  simp [hk]

end Sys2Proof.Machine
end

