-- ==== Sys2Proof/Laws/Operands.lean ====
section
/-! SUPPORT. What each shared operand operation can do: the bounds check, the code target, the key number, the flags. -/

namespace Sys2Proof.Machine

/-! ### The bounds check (spec/20_memory.md R56) -/

theorem badAddress_eq (s : State) (c : Nat) :
    s.badAddress c = if s.RunsOff c then some s.lowestBad else none := rfl

/-- A reading access: the fault with nothing touched, or the continuation. -/
theorem readingData_eq (s k : State) (c : Nat) :
    s.readingData c k = if s.RunsOff c then .fault (.dataReadOutOfRange s.lowestBad) else .next k := by
  unfold State.readingData
  rw [badAddress_eq]
  by_cases h : s.RunsOff c
  · rw [if_pos h, if_pos h]; rfl
  · rw [if_neg h, if_neg h]

/-- A writing access: the fault with nothing touched, or the continuation. -/
theorem writingData_eq (s k : State) (c : Nat) :
    s.writingData c k = if s.RunsOff c then .fault (.dataWriteOutOfRange s.lowestBad) else .next k := by
  unfold State.writingData
  rw [badAddress_eq]
  by_cases h : s.RunsOff c
  · rw [if_pos h, if_pos h]; rfl
  · rw [if_neg h, if_neg h]

/-! ### Operands -/

@[simp] theorem toNat_zext16 (nnn : Addr12) : (zext16 nnn).toNat = nnn.toNat := by
  simp [zext16]; omega

@[simp] theorem toNat_zextByte (b : Byte) : (zextByte b).toNat = b.toNat := by
  simp [zextByte]; omega

@[simp] theorem codeTarget_eq (nnn : Addr12) : codeTarget nnn = zext16 nnn := by
  apply BitVec.eq_of_toNat_eq
  simp [codeTarget, zext16]

theorem keyIndex_of_lt {b : Byte} {k : Fin 16} (h : b.toNat = k.val) : keyIndex b = some k := by
  simp [keyIndex, h]

theorem keyIndex_of_ge {b : Byte} (h : 16 ≤ b.toNat) : keyIndex b = none := by
  simp [keyIndex]; omega

/-! ### Flags (spec/42_register_alu.md R140) -/

/-- The heuristic of ADD is the carry. -/
theorem carryFlag_add (a b : Byte) : carryFlag a (a + b) = if 256 ≤ a.toNat + b.toNat then 1#8 else 0#8 := by
  have : (a + b).toNat < a.toNat ↔ 256 ≤ a.toNat + b.toNat := by simp only [BitVec.toNat_add]; omega
  simp only [carryFlag, flagByte, this, decide_eq_true_eq]

/-- The heuristic of SUB is the borrow. -/
theorem borrowFlag_sub (a b : Byte) : borrowFlag a (a - b) = if a.toNat < b.toNat then 1#8 else 0#8 := by
  have : a.toNat < (a - b).toNat ↔ a.toNat < b.toNat := by simp only [BitVec.toNat_sub]; omega
  simp only [borrowFlag, flagByte, this, decide_eq_true_eq]

theorem toNat_shrFlag (b : Byte) : (shrFlag b).toNat = b.toNat % 2 := by
  simp [shrFlag, Nat.and_one_is_mod]

theorem toNat_shlFlag (b : Byte) : (shlFlag b).toNat = b.toNat / 128 := by
  simp [shlFlag, Nat.and_one_is_mod, Nat.shiftRight_eq_div_pow]; omega

/-! ### Decimal digits (spec/43_index_memory.md R153) -/

theorem decimalDigits_toNat (v : Byte) :
    (decimalDigits v).map BitVec.toNat = [v.toNat / 100, v.toNat / 10 % 10, v.toNat % 10] := by
  simp [decimalDigits]

end Sys2Proof.Machine
end

