-- ==== Sys2Proof/Laws/Registers.lean ====
section
/-! SUPPORT. Loading a list of bytes into the registers, and the list of the first registers
(spec/43_index_memory.md R154, R155). -/

namespace Sys2Proof.Machine

/-- What a load of bytes does to every register: those of the range take their byte, the others keep theirs. -/
theorem loadRegs_get (v : Vector Byte 16) (k : Nat) (bytes : List Byte) (r : Nat) (hr : r < 16) :
    (loadRegs v k bytes)[r] =
      if h : k ≤ r ∧ r < k + bytes.length then bytes[r - k]'(by omega) else v[r] := by
  induction bytes generalizing v k with
  | nil => simp [loadRegs]
  | cons b rest ih =>
    rw [loadRegs, ih]
    by_cases h1 : k + 1 ≤ r ∧ r < k + 1 + rest.length
    · have h2 : k ≤ r ∧ r < k + (b :: rest).length := by simp only [List.length_cons]; omega
      have h3 : r - k = r - (k + 1) + 1 := by omega
      simp only [h1, h2, h3, and_self, dif_pos, List.getElem_cons_succ]
    · by_cases h2 : r = k
      · subst h2; simp
      · have h3 : ¬(k ≤ r ∧ r < k + (b :: rest).length) := by simp only [List.length_cons]; omega
        have h4 : k ≠ r := fun h => h2 h.symm
        simp only [h1, h3, dif_neg, not_false_eq_true, Vector.getElem_setIfInBounds, h4, if_false]

theorem length_firstRegs (s : State) (x : Count) : (s.firstRegs x).length = x.val := by
  simp [State.firstRegs]

theorem getElem_firstRegs (s : State) {x : Count} {k : Nat} (h : k < (s.firstRegs x).length) :
    (s.firstRegs x)[k] = s.reg ⟨k, by rw [length_firstRegs] at h; omega⟩ := by
  simp [State.firstRegs, State.reg]

end Sys2Proof.Machine
end

