-- ==== Sys2Proof/Laws/Step.lean ====
section
/-! SUPPORT. What a fetch and a step can do (spec/40_cycle.md R100, R101). -/

namespace Sys2Proof.Machine

theorem fetch_eq (s : State) :
    s.fetch = if s.pc.toNat + 1 < 1791 then .ok (wordOfBytes (s.mem.read s.pc.toNat) (s.mem.read (s.pc.toNat + 1)))
      else .error (.fetchOutOfRange s.pc) := rfl

/-- A step at a fetchable pc is the meaning of the decoded word. -/
theorem step_of_fetchable {s : State} (h : s.pc.toNat + 1 < 1791) :
    step s = exec (decodeWord (wordOfBytes (s.mem.read s.pc.toNat) (s.mem.read (s.pc.toNat + 1)))) s := by
  simp [step, fetch_eq, h]

/-- A step at an unfetchable pc is the fetch fault. -/
theorem step_of_unfetchable {s : State} (h : ¬ s.pc.toNat + 1 < 1791) : step s = .fault (.fetchOutOfRange s.pc) := by
  simp [step, fetch_eq, h, raise]

/-- A step that gives a next state fetched an instruction and executed it. -/
theorem step_next {s t : State} (h : step s = .next t) : s.pc.toNat + 1 < 1791 ∧ ∃ i, exec i s = .next t := by
  by_cases hp : s.pc.toNat + 1 < 1791
  · exact ⟨hp, _, step_of_fetchable hp ▸ h⟩
  · rw [step_of_unfetchable hp] at h; cases h

/-- The fetch after a word was placed reads that word. -/
theorem withFetchWord_pc (s : State) (nbits w : Nat) : (s.withFetchWord nbits w).pc = s.fetchable.pc := rfl

end Sys2Proof.Machine
end

