-- ==== Sys2Proof/Laws/Exec.lean ====
section
/-! SUPPORT. What each meaning answers, in plain updates of the state: one equation per instruction that can fault, and
the frame of an update followed by the pc's. -/

namespace Sys2Proof.Machine

/-! ### The instructions with a fault condition (spec/60_exceptions.md R180) -/

theorem execRet_eq (s : State) :
    execRet s = if s.sp = 0 then .fault (.stackUnderflow s.pc)
      else .next ((s.setSp (s.sp - 1)).setPc (s.entry (s.sp - 1) + 2#16)) := rfl

theorem execCall_eq (nnn : Addr12) (s : State) :
    execCall nnn s = if s.sp = 15 then .fault (.stackOverflow s.pc)
      else .next ((s.setSp (s.sp + 1)).setPc (zext16 nnn)) := by
  simp only [execCall, codeTarget_eq, raise]

theorem execSkp_of_key {x : Reg} {s : State} {k : Fin 16} (h : (s.reg x).toNat = k.val) :
    execSkp x s = .next (s.setPc (if s.keyDown k = true then s.pc + 4#16 else s.pc + 2#16)) := by
  simp only [execSkp, keyIndex_of_lt h, skipIf_eq]

theorem execSkp_of_no_key {x : Reg} {s : State} (h : 16 ≤ (s.reg x).toNat) :
    execSkp x s = .fault (.keyIndexOutOfRange (s.reg x)) := by
  simp only [execSkp, keyIndex_of_ge h, raise]

theorem execSknp_of_key {x : Reg} {s : State} {k : Fin 16} (h : (s.reg x).toNat = k.val) :
    execSknp x s = .next (s.setPc (if s.keyDown k = false then s.pc + 4#16 else s.pc + 2#16)) := by
  simp only [execSknp, keyIndex_of_lt h, skipIf_eq, Bool.not_eq_true']

theorem execSknp_of_no_key {x : Reg} {s : State} (h : 16 ≤ (s.reg x).toNat) :
    execSknp x s = .fault (.keyIndexOutOfRange (s.reg x)) := by
  simp only [execSknp, keyIndex_of_ge h, raise]

theorem execBcd_eq (x : Reg) (s : State) :
    execBcd x s = if s.RunsOff 3 then .fault (.dataWriteOutOfRange s.lowestBad)
      else .next ((s.setMem (s.mem.writeBytes s.I.toNat (decimalDigits (s.reg x)))).setPc (s.pc + 2#16)) :=
  writingData_eq _ _ _

theorem execSt_eq (x : Count) (s : State) :
    execSt x s = if s.RunsOff x then .fault (.dataWriteOutOfRange s.lowestBad)
      else .next ((s.setMem (s.mem.writeBytes s.I.toNat (s.firstRegs x))).setPc (s.pc + 2#16)) :=
  writingData_eq _ _ _

theorem execLdm_eq (x : Count) (s : State) :
    execLdm x s = if s.RunsOff x then .fault (.dataReadOutOfRange s.lowestBad)
      else .next ((s.setV (loadRegs s.V 0 (s.mem.readBytes s.I.toNat x))).setPc (s.pc + 2#16)) :=
  readingData_eq _ _ _

theorem execDrw_eq (x y : Reg) (n : Count) (s : State) :
    execDrw x y n s = if s.RunsOff n then .fault (.dataReadOutOfRange s.lowestBad)
      else .next ((s.setFb (s.fb.blit ((s.reg y).toNat % 32) ((s.reg x).toNat % 64)
        (s.mem.readBytes s.I.toNat n))).setPc (s.pc + 2#16)) :=
  readingData_eq _ _ _

/-! ### Frames -/

/-- The frame of an update that leaves stack, depth and keys alone, followed by a write of the pc. -/
theorem frame_then_setPc {w : Writes} {s u : State} (p : Word) (regs : ∀ r, ¬ w.regs r → u.reg r = s.reg r)
    (index : ¬ w.index → u.I = s.I) (mem : ∀ a, ¬ w.mem a → u.mem.read a = s.mem.read a)
    (frameBuffer : ¬ w.frameBuffer → u.fb = s.fb) (draws : ¬ w.draws → u.drawIndex = s.drawIndex)
    (depth : u.sp = s.sp) (stack : u.stack = s.stack) (key : u.key = s.key) : Frame w s (u.setPc p) := by
  refine ⟨regs, index, mem, frameBuffer, fun _ => depth, fun k hk _ => ?_, key, draws⟩
  rw [setPc_entry, if_neg (depth ▸ hk), State.entry, State.entry, stack]

/-- The frame of a move of the depth cursor followed by a write of the pc. -/
theorem frame_setSp_setPc (s : State) (k : Fin 16) (p : Word) :
    Frame { depth := True } s ((s.setSp k).setPc p) := by
  refine ⟨fun _ _ => rfl, fun _ => rfl, fun _ _ => rfl, fun _ => rfl, fun h => absurd trivial h, fun j _ hj => ?_, rfl,
    fun _ => rfl⟩
  exact (setPc_entry _ _ _).trans (if_neg hj)

end Sys2Proof.Machine
end

