-- ==== Sys2Proof/Laws/FrameBuffer.lean ====
section
/-! SUPPORT. What the operations on the frame buffer do to every pixel (spec/44_display.md R170, R171). -/

namespace Sys2Proof.Machine

theorem FrameBuffer.ext {f g : FrameBuffer} (h : ∀ y x, f.pixel y x = g.pixel y x) : f = g :=
  Vector.ext fun y hy => Vector.ext fun x hx => h ⟨y, hy⟩ ⟨x, hx⟩

@[simp] theorem FrameBuffer.pixel_blank (y : Fin 32) (x : Fin 64) : FrameBuffer.blank.pixel y x = false := by
  simp [FrameBuffer.pixel, FrameBuffer.blank]

/-- One exclusive-or: the pixel named, if the grid has it, and no other. -/
theorem FrameBuffer.pixel_xorPixel (fb : FrameBuffer) (r c : Nat) (bit : Bool) (y : Fin 32) (x : Fin 64) :
    (fb.xorPixel r c bit).pixel y x = (fb.pixel y x ^^ (decide (y.val = r ∧ x.val = c) && bit)) := by
  unfold FrameBuffer.xorPixel
  split
  · next h =>
    simp only [FrameBuffer.pixel, Fin.getElem_fin, Vector.getElem_set]
    by_cases hy : r = y.val
    · subst hy
      by_cases hx : c = x.val
      · subst hx; simp
      · simp [hx, Ne.symm hx]
    · simp [hy, Ne.symm hy]
  · next h =>
    have : ¬(y.val = r ∧ x.val = c) := by omega
    simp [this]

/-- One sprite row: its 8 bits, most significant first, clipped. -/
theorem FrameBuffer.pixel_blitRow (fb : FrameBuffer) (r c : Nat) (b : Byte) (y : Fin 32) (x : Fin 64) :
    (fb.blitRow r c b).pixel y x =
      (fb.pixel y x ^^ (decide (y.val = r ∧ c ≤ x.val ∧ x.val < c + 8) && b.getLsbD (7 - (x.val - c)))) := by
  simp only [FrameBuffer.blitRow, List.range_succ, List.range_zero, List.nil_append, List.foldl_append,
    List.foldl_cons, List.foldl_nil, FrameBuffer.pixel_xorPixel]
  by_cases hr : y.val = r
  · by_cases hc : c ≤ x.val ∧ x.val < c + 8
    · obtain ⟨d, hd⟩ := Nat.exists_eq_add_of_le hc.1
      have hlt : d < 8 := by omega
      simp only [hr, hd, true_and, Nat.add_right_inj, Nat.add_sub_cancel_left, Nat.le_add_right, Nat.add_lt_add_iff_left]
      have : d = 0 ∨ d = 1 ∨ d = 2 ∨ d = 3 ∨ d = 4 ∨ d = 5 ∨ d = 6 ∨ d = 7 := by omega
      rcases this with rfl | rfl | rfl | rfl | rfl | rfl | rfl | rfl <;> simp
    · have : ∀ j, j < 8 → ¬ x.val = c + j := fun j hj h => hc (by omega)
      have h0 : ¬ x.val = c := this 0 (by omega)
      simp [hr, hc, h0, this 1, this 2, this 3, this 4, this 5, this 6, this 7]
  · simp [hr]

/-- The whole sprite: every row's byte at its row, clipped. -/
theorem FrameBuffer.pixel_blit (fb : FrameBuffer) (y0 x0 : Nat) (bytes : List Byte) (y : Fin 32) (x : Fin 64) :
    (fb.blit y0 x0 bytes).pixel y x =
      (fb.pixel y x ^^ (decide (x0 ≤ x.val ∧ x.val < x0 + 8 ∧ y0 ≤ y.val ∧ y.val < y0 + bytes.length)
        && (bytes.getD (y.val - y0) 0#8).getLsbD (7 - (x.val - x0)))) := by
  induction bytes generalizing fb y0 with
  | nil => simp [FrameBuffer.blit]
  | cons b rest ih =>
    rw [FrameBuffer.blit, ih, FrameBuffer.pixel_blitRow, Bool.xor_assoc]
    congr 1
    by_cases hx : x0 ≤ x.val ∧ x.val < x0 + 8
    · by_cases hy : y.val = y0
      · simp [hy, hx]
      · by_cases hy' : y0 + 1 ≤ y.val ∧ y.val < y0 + 1 + rest.length
        · have h1 : y.val - y0 = y.val - (y0 + 1) + 1 := by omega
          have h2 : y0 ≤ y.val := by omega
          have h3 : y.val < y0 + (rest.length + 1) := by omega
          simp [hx, hy, hy', h1, h2, h3]
        · have h3 : ¬(y0 ≤ y.val ∧ y.val < y0 + (rest.length + 1)) := by omega
          simp only [hx, hy, hy', h3, List.length_cons, true_and, false_and, and_false, decide_false, Bool.false_and,
            Bool.false_xor]
    · have h1 : ¬(y.val = y0 ∧ x0 ≤ x.val ∧ x.val < x0 + 8) := fun h => hx h.2
      have h2 : ∀ p : Prop, ¬(x0 ≤ x.val ∧ x.val < x0 + 8 ∧ p) := fun p h => hx ⟨h.1, h.2.1⟩
      simp only [h1, h2, decide_false, Bool.false_and, Bool.false_xor]

/-- The bits DRW draws are the sprite bits of the state. -/
theorem pixel_drawn (s : State) (x y : Reg) (n : Count) (row : Fin 32) (col : Fin 64) :
    (s.fb.blit ((s.reg y).toNat % 32) ((s.reg x).toNat % 64) (s.mem.readBytes s.I.toNat n)).pixel row col =
      (s.fb.pixel row col ^^ s.spriteBit x y n row col) := by
  rw [FrameBuffer.pixel_blit]
  simp only [State.spriteBit, Memory.length_readBytes]
  congr 1
  by_cases h : decide ((s.reg x).toNat % 64 ≤ col.val ∧ col.val < (s.reg x).toNat % 64 + 8 ∧
      (s.reg y).toNat % 32 ≤ row.val ∧ row.val < (s.reg y).toNat % 32 + n.val) = true
  swap
  · rw [Bool.not_eq_true] at h; rw [h]; rfl
  have hr : row.val - (s.reg y).toNat % 32 < (s.mem.readBytes s.I.toNat n).length := by
    have := of_decide_eq_true h
    rw [Memory.length_readBytes]; omega
  rw [List.getD_eq_getElem _ _ hr, Memory.getElem_readBytes]

end Sys2Proof.Machine
end

