-- ==== Sys2Proof/Laws/PerInstr.lean ====
section
/-! SUPPORT. Per instruction: the word of an instruction is one that its own row of the opcode table selects,
`w & mask = match` (spec/30_encoding.md R84); a NOP has no row of the 28. -/

namespace Sys2Proof.Laws.EncodeRow

/-- The row of the table at the instruction's place, if it has one, selects the instruction's word. -/
def Statement (i : Instr) : Prop := ∀ row, opcodeTable[rowOf i]? = some row → rowSelects row (encode i) = true

/-- A statement about an instruction is a fact about its masked word. -/
theorem of_masked {i : Instr} {mask pattern : Word} (hrow : opcodeTable[rowOf i]? = some (mask, pattern))
    (h : encode i &&& mask = pattern) : Statement i := by
  intro row hr
  rw [hrow, Option.some.injEq] at hr
  subst hr
  simp [rowSelects, h]

theorem cls : Statement .cls := of_masked rfl (by decide)
theorem ret : Statement .ret := of_masked rfl (by decide)
theorem jp (nnn : Addr12) : Statement (.jp nnn) := of_masked rfl ((mask_formatA _ _).trans (by decide))
theorem call (nnn : Addr12) : Statement (.call nnn) := of_masked rfl ((mask_formatA _ _).trans (by decide))
theorem seImm (x : Reg) (kk : Byte) : Statement (.seImm x kk) := of_masked rfl ((mask_formatK _ _ _).trans (by decide))
theorem sneImm (x : Reg) (kk : Byte) : Statement (.sneImm x kk) := of_masked rfl ((mask_formatK _ _ _).trans (by decide))
theorem seReg (x y : Reg) : Statement (.seReg x y) := of_masked rfl ((mask_formatR _ _ _ _).trans (by decide))
theorem ldImm (x : Reg) (kk : Byte) : Statement (.ldImm x kk) := of_masked rfl ((mask_formatK _ _ _).trans (by decide))
theorem addImm (x : Reg) (kk : Byte) : Statement (.addImm x kk) := of_masked rfl ((mask_formatK _ _ _).trans (by decide))
theorem orReg (x y : Reg) : Statement (.orReg x y) := of_masked rfl ((mask_formatS _ _ _ _).trans (by decide))
theorem andReg (x y : Reg) : Statement (.andReg x y) := of_masked rfl ((mask_formatS _ _ _ _).trans (by decide))
theorem xorReg (x y : Reg) : Statement (.xorReg x y) := of_masked rfl ((mask_formatS _ _ _ _).trans (by decide))
theorem addReg (x y : Reg) : Statement (.addReg x y) := of_masked rfl ((mask_formatS _ _ _ _).trans (by decide))
theorem subReg (x y : Reg) : Statement (.subReg x y) := of_masked rfl ((mask_formatS _ _ _ _).trans (by decide))
theorem shrReg (x y : Reg) : Statement (.shrReg x y) := of_masked rfl ((mask_formatS _ _ _ _).trans (by decide))
theorem shlReg (x y : Reg) : Statement (.shlReg x y) := of_masked rfl ((mask_formatS _ _ _ _).trans (by decide))
theorem sneReg (x y : Reg) : Statement (.sneReg x y) := of_masked rfl ((mask_formatR _ _ _ _).trans (by decide))
theorem ldI (nnn : Addr12) : Statement (.ldI nnn) := of_masked rfl ((mask_formatA _ _).trans (by decide))
theorem jpV0 (nnn : Addr12) : Statement (.jpV0 nnn) := of_masked rfl ((mask_formatA _ _).trans (by decide))
theorem rnd (x : Reg) (kk : Byte) : Statement (.rnd x kk) := of_masked rfl ((mask_formatK _ _ _).trans (by decide))
theorem drw (x y : Reg) (n : Count) : Statement (.drw x y n) := of_masked rfl ((mask_formatR _ _ _ _).trans (by decide))
theorem skp (x : Reg) : Statement (.skp x) := of_masked rfl ((mask_formatX _ _ _).trans (by decide))
theorem sknp (x : Reg) : Statement (.sknp x) := of_masked rfl ((mask_formatX _ _ _).trans (by decide))
theorem addI (x : Reg) : Statement (.addI x) := of_masked rfl ((mask_formatX _ _ _).trans (by decide))
theorem ldF (x : Reg) : Statement (.ldF x) := of_masked rfl ((mask_formatX _ _ _).trans (by decide))
theorem bcd (x : Reg) : Statement (.bcd x) := of_masked rfl ((mask_formatX _ _ _).trans (by decide))
theorem st (x : Count) : Statement (.st x) := of_masked rfl ((mask_formatX _ _ _).trans (by decide))
theorem ldm (x : Count) : Statement (.ldm x) := of_masked rfl ((mask_formatX _ _ _).trans (by decide))

/-- A NOP has no row of the 28. -/
theorem nop (w : Word) : Statement (.nop w) := fun _ h => nomatch h

end Sys2Proof.Laws.EncodeRow
end

