-- ==== Sys2Proof/Tests/Slice0.lean ====
section
/-! SUPPORT. The model's own tests: well-formedness, decoding of words written out bit by bit from
spec/30_encoding.md R81, the vectors of spec/95_test_vectors.md (their ids in the comments), and a witness for the
hypotheses of every statement. -/

namespace Sys2Proof.Machine

/-! ### Helpers -/

/-- Whether an outcome is a next state with a property. -/
def gives (o : Result) (p : State → Bool) : Bool :=
  match o with
  | .next t => p t
  | .fault _ => false
  | .refused _ => false

/-- Whether an outcome is a given fault. -/
def faults (o : Result) (f : Fault) : Bool :=
  match o with
  | .next _ => false
  | .fault g => g == f
  | .refused _ => false

theorem of_gives {o : Result} {p : State → Bool} (h : gives o p = true) : ∃ t, o = .next t ∧ p t = true := by
  cases o with
  | next t => exact ⟨t, rfl, h⟩
  | fault => cases h
  | refused => cases h

theorem of_faults {o : Result} {f : Fault} (h : faults o f = true) : o = .fault f := by
  cases o with
  | next => cases h
  | fault g => exact congrArg Host.Outcome.fault (by simpa [faults] using h)
  | refused => cases h

/-- The reset state with the pc at `pc` and the word `w` there, both bytes in reach of a write. -/
def at_ (pc : Word) (w : Word) : State := (State.reset.setPc pc).placeWord w

/-- Registers set one after another. -/
def State.regs (s : State) (l : List (Reg × Byte)) : State := l.foldl (fun s p => s.setReg p.1 p.2) s

/-- The lit pixels among some, as (column, row). -/
def State.lit (s : State) (l : List (Fin 64 × Fin 32)) : Bool := l.all (fun p => s.fb.pixel p.2 p.1)

/-- No pixel among some is lit. -/
def State.dark (s : State) (l : List (Fin 64 × Fin 32)) : Bool := l.all (fun p => !s.fb.pixel p.2 p.1)

/-! ### Well-formedness: the one check, a NOP carries a word of the NOP space -/

/-- CLS and RET are no NOPs; 0x01E0 is one (R83, R86). -/
theorem test_ill_formed_family0 :
    WellFormed (.nop 0x00E0#16) = false ∧ WellFormed (.nop 0x00EE#16) = false
      ∧ WellFormed (.nop 0x01E0#16) = true := by decide

/-- Words of decoded rows are no NOPs (R84, R86). -/
theorem test_ill_formed_families :
    [0x1000#16, 0x8121#16, 0x812E#16, 0xE29E#16, 0xE2A1#16, 0xF21E#16, 0xF229#16, 0xF233#16, 0xF255#16, 0xF265#16].all
      (fun w => !WellFormed (.nop w)) = true := by decide

/-! ### Decoding of words written out from the formats of R81 -/

/-- 00E0, format Z. -/
theorem test_decode_cls :
    decodeWord 0b0000000011100000#16 = .cls := by decide

/-- 00EE, format Z. -/
theorem test_decode_ret :
    decodeWord 0b0000000011101110#16 = .ret := by decide

/-- 1nnn, format A, nnn = ABC. -/
theorem test_decode_jp :
    decodeWord 0b0001101010111100#16 = .jp 0xABC#12 := by decide

/-- 2nnn, format A. -/
theorem test_decode_call :
    decodeWord 0b0010000100100011#16 = .call 0x123#12 := by decide

/-- 3xkk, format K, x = 5, kk = C3. -/
theorem test_decode_seImm :
    decodeWord 0b0011010111000011#16 = .seImm 5 0xC3#8 := by decide

/-- 4xkk, format K. -/
theorem test_decode_sneImm :
    decodeWord 0b0100101000001111#16 = .sneImm 10 0x0F#8 := by decide

/-- 5xy_, format R; the low nibble is ignored (R85). -/
theorem test_decode_seReg :
    decodeWord 0b0101000100101111#16 = .seReg 1 2 := by decide

/-- 6xkk, format K. -/
theorem test_decode_ldImm :
    decodeWord 0b0110111110101011#16 = .ldImm 15 0xAB#8 := by decide

/-- 7xkk, format K. -/
theorem test_decode_addImm :
    decodeWord 0b0111000111111111#16 = .addImm 1 0xFF#8 := by decide

/-- 8xy1, format R. -/
theorem test_decode_orReg :
    decodeWord 0b1000000100100001#16 = .orReg 1 2 := by decide

/-- 8xy2, format R. -/
theorem test_decode_andReg :
    decodeWord 0b1000001101000010#16 = .andReg 3 4 := by decide

/-- 8xy3, format R. -/
theorem test_decode_xorReg :
    decodeWord 0b1000111011010011#16 = .xorReg 14 13 := by decide

/-- 8xy4, format R. -/
theorem test_decode_addReg :
    decodeWord 0b1000000000010100#16 = .addReg 0 1 := by decide

/-- 8xy5, format R. -/
theorem test_decode_subReg :
    decodeWord 0b1000001001110101#16 = .subReg 2 7 := by decide

/-- 8xy6, format R. -/
theorem test_decode_shrReg :
    decodeWord 0b1000000111110110#16 = .shrReg 1 15 := by decide

/-- 8xyE, format R. -/
theorem test_decode_shlReg :
    decodeWord 0b1000111100101110#16 = .shlReg 15 2 := by decide

/-- 9xy_, format R; the low nibble is ignored (R85). -/
theorem test_decode_sneReg :
    decodeWord 0b1001000100100111#16 = .sneReg 1 2 := by decide

/-- Annn, format A. -/
theorem test_decode_ldI :
    decodeWord 0b1010111111111110#16 = .ldI 0xFFE#12 := by decide

/-- Bnnn, format A. -/
theorem test_decode_jpV0 :
    decodeWord 0b1011000100000110#16 = .jpV0 0x106#12 := by decide

/-- Cxkk, format K. -/
theorem test_decode_rnd :
    decodeWord 0b1100001100001111#16 = .rnd 3 0x0F#8 := by decide

/-- Dxyn, format D. -/
theorem test_decode_drw :
    decodeWord 0b1101000100101111#16 = .drw 1 2 15 := by decide

/-- Ex9E, format X. -/
theorem test_decode_skp :
    decodeWord 0b1110001010011110#16 = .skp 2 := by decide

/-- ExA1, format X. -/
theorem test_decode_sknp :
    decodeWord 0b1110110110100001#16 = .sknp 13 := by decide

/-- Fx1E, format X. -/
theorem test_decode_addI :
    decodeWord 0b1111001000011110#16 = .addI 2 := by decide

/-- Fx29, format X. -/
theorem test_decode_ldF :
    decodeWord 0b1111010000101001#16 = .ldF 4 := by decide

/-- Fx33, format X. -/
theorem test_decode_bcd :
    decodeWord 0b1111100100110011#16 = .bcd 9 := by decide

/-- Fx55, format X. -/
theorem test_decode_st :
    decodeWord 0b1111011001010101#16 = .st 6 := by decide

/-- Fx65, format X. -/
theorem test_decode_ldm :
    decodeWord 0b1111111101100101#16 = .ldm 15 := by decide

/-- a word of the NOP space (R86), conventionally 8xy7 (R90). -/
theorem test_decode_nop :
    decodeWord 0b1000001001110111#16 = .nop 0x8277#16 := by decide

/-- Big-endian (R52); the rest of the bytes is left. -/
theorem test_decode_bytes :
    decode [0x60#8, 0x05#8, 0x61#8] = .ok (.ldImm 0 0x05#8, [0x61#8]) ∧ decode [0x60#8] = .error .tooFewBytes := by decide

/-- The assembler emits 0 in the ignored nibble (R88). -/
theorem test_encode_ignored :
    encode (.seReg 1 2) = 0x5120#16 ∧ encode (.sneReg 1 2) = 0x9120#16 ∧ encode (.st 2) = 0xF255#16 := by decide

/-- The host's question, for RND. -/
theorem test_decode_table_word :
    decodeTableWord 16 0xC3FF = some (.rnd 3 0xFF#8) := by decide

/-! ### Vectors of spec/95_test_vectors.md -/

/-- T0.5. -/
theorem test_nop_no_copy :
    gives (step ((at_ 0x010 0x8120).regs [(1, 7), (2, 9)]))
      (fun t => t.pc == 0x012 && t.reg 1 == 7) = true := by decide

/-- T0.12: the last word of memory, at an odd address. -/
theorem test_fetch_odd :
    gives (step (at_ 0x6FD 0x6007))
      (fun t => t.reg 0 == 0x07 && t.pc == 0x6FF) = true := by decide

/-- T0.11. -/
theorem test_fetch_fault :
    faults (step (State.reset.setPc 0x6FE)) (.fetchOutOfRange 0x6FE) = true := by decide

/-- T0.14. -/
theorem test_fetch_fault_no_wrap :
    faults (step (State.reset.setPc 0xFFFF)) (.fetchOutOfRange 0xFFFF) = true := by decide

/-- T1.3: the jump itself completes. -/
theorem test_jp_unfetchable :
    gives (step (at_ 0x00A 0x16FE))
      (fun t => t.pc == 0x6FE) = true := by decide

/-- T1.7. -/
theorem test_call_last :
    gives (step (((State.reset.setSp 14).setPc 0x020).placeWord 0x2010))
      (fun t => t.sp == 15 && t.entry 15 == 0x010 && t.entry 14 == 0x020) = true := by decide

/-- T1.6. -/
theorem test_call_overflow :
    faults (step (((State.reset.setSp 15).setPc 0x020).placeWord 0x2010)) (.stackOverflow 0x020) = true := by decide

/-- T1.8. -/
theorem test_ret :
    gives (step ((((State.reset.setPc 0x004).setSp 1).setPc 0x012).placeWord 0x00EE))
      (fun t => t.sp == 0 && t.entry 0 == 0x006 && t.entry 1 == 0x012) = true := by decide

/-- T1.9. -/
theorem test_ret_underflow :
    faults (step (at_ 0x012 0x00EE)) (.stackUnderflow 0x012) = true := by decide

/-- T1.11. -/
theorem test_jpV0_13_bits :
    gives (step ((at_ 0 0xBFFF).regs [(0, 0xFF)]))
      (fun t => t.pc == 0x10FE && t.reg 15 == 0) = true := by decide

/-- T2.1. -/
theorem test_seImm_taken :
    gives (step (at_ 0x008 0x3300))
      (fun t => t.pc == 0x00C) = true := by decide

/-- T2.4. -/
theorem test_sneImm_not_taken :
    gives (step (at_ 0x008 0x4300))
      (fun t => t.pc == 0x00A) = true := by decide

/-- T2.6. -/
theorem test_seReg_ignored_nibble :
    gives (step ((at_ 0x020 0x512F).regs [(1, 5), (2, 5)]))
      (fun t => t.pc == 0x024) = true := by decide

/-- T2.8. -/
theorem test_sneReg_taken :
    gives (step ((at_ 0x020 0x9120).regs [(1, 5), (2, 6)]))
      (fun t => t.pc == 0x024) = true := by decide

/-- T2.12. -/
theorem test_skp_taken :
    gives (step (((at_ 0x030 0xE29E).regs [(2, 0x0A)]).setKey 10 true))
      (fun t => t.pc == 0x034) = true := by decide

/-- T2.16. -/
theorem test_skp_no_key :
    faults (step ((at_ 0x030 0xE29E).regs [(2, 0x10)])) (.keyIndexOutOfRange 0x10) = true := by decide

/-- T2.15. -/
theorem test_sknp_not_taken :
    gives (step (((at_ 0x030 0xE2A1).regs [(2, 0x0A)]).setKey 10 true))
      (fun t => t.pc == 0x032) = true := by decide

/-- T2.17. -/
theorem test_sknp_no_key :
    faults (step ((at_ 0x030 0xE2A1).regs [(2, 0xFF)])) (.keyIndexOutOfRange 0xFF) = true := by decide

/-- T3.2. -/
theorem test_ldImm_flag :
    gives (step (at_ 0 0x6FAB))
      (fun t => t.reg 15 == 0xAB) = true := by decide

/-- T3.4. -/
theorem test_addImm_no_flag :
    gives (step ((at_ 0 0x7101).regs [(1, 0xFF)]))
      (fun t => t.reg 1 == 0 && t.reg 15 == 0) = true := by decide

/-- T3.6. -/
theorem test_orReg :
    gives (step ((at_ 0 0x8121).regs [(1, 0xF0), (2, 0x0F)]))
      (fun t => t.reg 1 == 0xFF) = true := by decide

/-- T3.7. -/
theorem test_andReg :
    gives (step ((at_ 0 0x8122).regs [(1, 0xF0), (2, 0x3C)]))
      (fun t => t.reg 1 == 0x30) = true := by decide

/-- T3.9. -/
theorem test_xorReg_self :
    gives (step ((at_ 0 0x8113).regs [(1, 0xF0)]))
      (fun t => t.reg 1 == 0) = true := by decide

/-- T3.14. -/
theorem test_addReg_carry :
    gives (step ((at_ 0 0x8014).regs [(0, 0xFF), (1, 0xFF)]))
      (fun t => t.reg 0 == 0xFE && t.reg 15 == 1) = true := by decide

/-- T3.17: the sum is lost. -/
theorem test_addReg_into_flag :
    gives (step ((at_ 0 0x8F14).regs [(15, 0x10), (1, 0x20)]))
      (fun t => t.reg 15 == 0) = true := by decide

/-- T3.22: 1 on borrow (C2). -/
theorem test_subReg_borrow :
    gives (step ((at_ 0 0x8015).regs [(0, 0x03), (1, 0x05)]))
      (fun t => t.reg 0 == 0xFE && t.reg 15 == 1) = true := by decide

/-- T3.31. -/
theorem test_subReg_by_flag :
    gives (step ((at_ 0 0x80F5).regs [(0, 0x01), (15, 0x02)]))
      (fun t => t.reg 0 == 0xFF && t.reg 15 == 1) = true := by decide

/-- T3.33. -/
theorem test_shrReg_source_y :
    gives (step ((at_ 0 0x8126).regs [(1, 0xEE), (2, 0x05)]))
      (fun t => t.reg 1 == 0x02 && t.reg 15 == 1 && t.reg 2 == 0x05) = true := by decide

/-- T3.36: sequential order (D15). -/
theorem test_shrReg_of_flag :
    gives (step ((at_ 0 0x81F6).regs [(1, 0xEE), (15, 0x03)]))
      (fun t => t.reg 15 == 1 && t.reg 1 == 0) = true := by decide

/-- T3.44. -/
theorem test_shlReg_into_flag :
    gives (step ((at_ 0 0x8F2E).regs [(2, 0x81)]))
      (fun t => t.reg 15 == 0x02) = true := by decide

/-- T3.42: sequential order (D15). -/
theorem test_shlReg_of_flag :
    gives (step ((at_ 0 0x81FE).regs [(1, 0xEE), (15, 0x80)]))
      (fun t => t.reg 15 == 1 && t.reg 1 == 0x02) = true := by decide

/-- T3.47: the draw is taken although kk is 0. -/
theorem test_rnd_draws :
    gives (step (at_ 0 0xC300))
      (fun t => t.drawIndex == 1 && t.pc == 2) = true := by decide

/-- T4.2. -/
theorem test_ldI_no_byte :
    gives (step (at_ 0 0xAFFF))
      (fun t => t.I == 0x0FFF) = true := by decide

/-- T4.4. -/
theorem test_addI_wraps :
    gives (step (((at_ 0 0xF21E).regs [(2, 0x02)]).setI 0xFFFF))
      (fun t => t.I == 0x0001 && t.reg 15 == 0) = true := by decide

/-- T4.8. -/
theorem test_ldF_whole_register :
    gives (step ((at_ 0 0xF429).regs [(4, 0xFF)]))
      (fun t => t.I == 0x00FF) = true := by decide

/-- T5.8. -/
theorem test_bcd_last_bytes :
    gives (step (((at_ 0 0xF033).regs [(0, 254)]).setI 0x6FC))
      (fun t => t.mem.readBytes 1788 3 == [2, 5, 4]) = true := by decide

/-- T5.9. -/
theorem test_bcd_fault :
    faults (step (((at_ 0 0xF033).regs [(0, 254)]).setI 0x6FD)) (.dataWriteOutOfRange 0x6FF) = true := by decide

/-- T5.13: nothing stored, no fault. -/
theorem test_st_zero :
    gives (step ((at_ 0 0xF055).setI 0xFFFF))
      (fun t => t.pc == 2 && t.mem == (at_ 0 0xF055).mem) = true := by decide

/-- T5.12. -/
theorem test_st_exclusive :
    gives (step (((at_ 0 0xF255).regs [(0, 0x60), (1, 0x2A), (2, 0x99)]).setI 0x008))
      (fun t => t.mem.readBytes 8 3 == [0x60, 0x2A, 0] && t.I == 8) = true := by decide

/-- T5.18. -/
theorem test_ldm_exclusive :
    gives (step (((at_ 0 0xF365).setMem ((at_ 0 0xF365).mem.writeBytes 0x100 [2, 5, 4, 9])).setI 0x100))
      (fun t => t.reg 0 == 2 && t.reg 1 == 5 && t.reg 2 == 4 && t.reg 3 == 0) = true := by decide

/-- T5.21. -/
theorem test_ldm_fault :
    faults (step ((at_ 0 0xF265).setI 0x6FE)) (.dataReadOutOfRange 0x6FF) = true := by decide

/-- T6.1, S7. -/
theorem test_cls :
    gives (step ((at_ 0 0x00E0).setFb (FrameBuffer.blank.xorPixel 3 7 true)))
      (fun t => t.dark [(7, 3), (63, 31)] && t.pc == 2) = true := by decide

/-- T6.2, S8: clipped, not wrapped. -/
theorem test_drw_clips :
    gives (step (((at_ 0 0xD011).setMem ((at_ 0 0xD011).mem.write 0x200 0xFF)).regs [(0, 60)] |>.setI 0x200))
      (fun t => t.lit [(60, 0), (61, 0), (62, 0), (63, 0)] && t.dark [(59, 0), (0, 0), (3, 0), (0, 1), (60, 1)]) = true := by decide

/-- T6.12: VF is not written. -/
theorem test_drw_no_collision :
    gives (step (((((at_ 0 0xD011).setMem ((at_ 0 0xD011).mem.write 0x200 0xFF)).setI 0x200).regs [(15, 0x55)]).setFb
      ((FrameBuffer.blank.xorPixel 0 0 true).xorPixel 0 1 true)))
      (fun t => t.lit [(2, 0), (7, 0)] && t.dark [(0, 0), (1, 0), (8, 0)] && t.reg 15 == 0x55) = true := by decide

/-- R66: slots 0 to 894. -/
theorem test_host_write_word :
    (hostApply (.writeWord 894 0x1234) State.reset).1.mem = [(1788, 0x12), (1789, 0x34)]
      ∧ hostApply (.writeWord 895 0x1234) State.reset = (State.reset, .refused) := by decide

/-- The host's placement, also from an unfetchable pc. -/
theorem test_with_fetch_word :
    (State.reset.withFetchWord 16 0x6005).mem = [(0, 0x60), (1, 0x05)]
      ∧ ((State.reset.setPc 1790).withFetchWord 16 0x6005).pc = 0 := by decide

/-! ### Witnesses: the hypotheses of every statement can be met -/

/-- StepKeepsInv: a RET inside a subroutine, from a state with the invariant; also the hypothesis of HostKeepsInv. -/
theorem witness_StepKeepsInv :
    ∃ s t : State, s.Inv ∧ step s = .next t ∧ s.sp = 1 :=
  have h : gives (step ((((State.reset.setPc 1789).setSp 1).setPc 4).placeWord 0x00EE)) (fun _ => true) = true := by decide
  let ⟨t, ht, _⟩ := of_gives h
  ⟨_, t, by decide, ht, by decide⟩

/-- StepRunsDecoded: the first unfetchable pc, the last fetchable one, and a faulting step. -/
theorem witness_StepRunsDecoded :
    (1791 ≤ (State.reset.setPc 1790).pc.toNat + 1)
    ∧ ((at_ 1789 0x6007).pc.toNat + 1 < 1791
      ∧ decode [(at_ 1789 0x6007).mem.read 1789, (at_ 1789 0x6007).mem.read 1790] = .ok (.ldImm 0 7, []))
    ∧ step (State.reset.setPc 1790) = .fault (.fetchOutOfRange 1790) :=
  ⟨by decide, by decide, of_faults (by decide)⟩

/-- DecodeEncode: a NOP of family F and an instruction with every field at its largest value. -/
theorem witness_DecodeEncode :
    WellFormed (.nop 0xF066#16) = true ∧ WellFormed (.drw 15 15 15) = true :=
  by decide

/-- JpResult: the self-jump of T1.4. -/
theorem witness_JpResult :
    (at_ 0x00A 0x100A).pc.toNat = (0x00A#12).toNat :=
  by decide

/-- PcAfter: a next state of RET and of CALL, and a faulting step. -/
theorem witness_PcAfter :
    (∃ t, exec .ret (State.reset.setSp 1) = .next t) ∧ (∃ t, exec (.call 0xFFF#12) State.reset = .next t)
    ∧ ∃ f, step (State.reset.setPc 1790) = .fault f :=
  ⟨⟨_, rfl⟩, ⟨_, rfl⟩, ⟨_, of_faults (f := .fetchOutOfRange 1790) (by decide)⟩⟩

/-- CallResult: the depths on both sides of the limit. -/
theorem witness_CallResult :
    (State.reset.setSp 15).sp = 15 ∧ (State.reset.setSp 14).sp ≠ 15 :=
  by decide

/-- RetResult: depth 0, and the smallest and largest depth a frame can be left from. -/
theorem witness_RetResult :
    State.reset.sp = 0 ∧ (State.reset.setSp 1).sp.val = (0 : Fin 16).val + 1
    ∧ (State.reset.setSp 15).sp.val = (14 : Fin 16).val + 1 :=
  by decide

/-- CallReturn: a CALL to 0x010, where a NOP stands before the RET (as in program P3). -/
theorem witness_CallReturn :
    ∃ s t m : State, s.pc.toNat + 1 < 1791
    ∧ decodeWord (wordOfBytes (s.mem.read s.pc.toNat) (s.mem.read (s.pc.toNat + 1))) = .call 0x010#12
    ∧ (1 : Fin 16).val = s.sp.val + 1 ∧ step s = .next t ∧ StepsAbove 1 t m ∧ m.sp = 1 ∧ m.pc.toNat + 1 < 1791
    ∧ decodeWord (wordOfBytes (m.mem.read m.pc.toNat) (m.mem.read (m.pc.toNat + 1))) = .ret :=
  by
  let s : State := (at_ 0x004 0x2010).setMem ((at_ 0x004 0x2010).mem.writeWord 0x012 0x00EE)
  have h1 : gives (step s) (fun t => gives (step t) (fun m => t.sp == 1 && m.sp == 1 && m.pc == 0x012
      && decodeWord (wordOfBytes (m.mem.read m.pc.toNat) (m.mem.read (m.pc.toNat + 1))) == .ret)) = true := by decide
  obtain ⟨t, ht, h2⟩ := of_gives h1
  obtain ⟨m, hm, h3⟩ := of_gives h2
  simp only [Bool.and_eq_true, beq_iff_eq] at h3
  obtain ⟨⟨⟨-, hsp⟩, hpc⟩, hdec⟩ := h3
  exact ⟨s, t, m, by decide, by decide, by decide, ht, .tail (.refl t) hm (by rw [hsp]), hsp, by rw [hpc]; decide, hdec⟩

/-- SkipKeyResult: the largest key number, and the first value that is none. -/
theorem witness_SkipKeyResult :
    ((State.reset.setReg 2 15).reg 2).toNat = (15 : Fin 16).val ∧ 16 ≤ ((State.reset.setReg 2 16).reg 2).toNat :=
  by decide

/-- AddRegResult, SubRegResult, ShrResult, ShlResult: a register other than VF, and VF. -/
theorem witness_flag_operands :
    (14 : Reg) ≠ 15 ∧ (15 : Reg) = 15 :=
  by decide

/-- BcdResult: T5.8 and T5.9, the last base that fits and the first that does not. -/
theorem witness_BcdResult :
    (State.reset.setI 1789).RunsOff 3 ∧ (State.reset.setI 1788).mem.wf ∧ ¬ (State.reset.setI 1788).RunsOff 3 :=
  by decide

/-- StResult: T5.14, T5.15 and T5.13 (a count of 0). -/
theorem witness_StResult :
    (State.reset.setI 1789).RunsOff (3 : Count).val ∧ (State.reset.setI 1789).mem.wf
    ∧ ¬ (State.reset.setI 1789).RunsOff (2 : Count).val ∧ ¬ (State.reset.setI 0xFFFF).RunsOff (0 : Count).val
    ∧ (1 : Reg) < (2 : Count) :=
  by decide

/-- LdmResult: T5.21, T5.22 and T5.19. -/
theorem witness_LdmResult :
    (State.reset.setI 1790).RunsOff (2 : Count).val ∧ ¬ (State.reset.setI 1790).RunsOff (1 : Count).val
    ∧ ¬ (State.reset.setI 0xFFFF).RunsOff (0 : Count).val ∧ (0 : Reg) < (1 : Count) :=
  by decide

/-- StoreSeenByFetch: a store and the digits at the last addresses that can be fetched. -/
theorem witness_StoreSeenByFetch :
    (∃ t, (State.reset.setI 1789).mem.wf ∧ exec (.st 2) (State.reset.setI 1789) = .next t
      ∧ (1 : Reg).val = (0 : Reg).val + 1 ∧ (1 : Reg) < (2 : Count)
      ∧ (1789#16).toNat = (State.reset.setI 1789).I.toNat + (0 : Reg).val)
    ∧ ∃ t, exec (.bcd 0) (State.reset.setI 1788) = .next t ∧ (1788#16).toNat = (State.reset.setI 1788).I.toNat
      ∧ (1789#16).toNat = (State.reset.setI 1788).I.toNat + 1 :=
  ⟨⟨_, by decide, rfl, by decide, by decide, by decide⟩, ⟨_, rfl, by decide, by decide⟩⟩

/-- DrwResult: T6.10, T6.11 and T6.9. -/
theorem witness_DrwResult :
    (State.reset.setI 1790).RunsOff (2 : Count).val ∧ ¬ (State.reset.setI 1790).RunsOff (1 : Count).val
    ∧ ¬ (State.reset.setI 0xFFFF).RunsOff (0 : Count).val :=
  by decide

/-- DrwSelfInverse: two bytes drawn at column 6 and again at column 70 mod 64, on the first drawing's frame buffer. -/
theorem witness_DrwSelfInverse :
    ∃ s t s' t' : State, exec (.drw 0 1 2) s = .next t ∧ exec (.drw 2 1 2) s' = .next t'
    ∧ (s'.reg 2).toNat % 64 = (s.reg 0).toNat % 64 ∧ (s'.reg 1).toNat % 32 = (s.reg 1).toNat % 32
    ∧ (∀ k, k < (2 : Count).val → s'.mem.read (s'.I.toNat + k) = s.mem.read (s.I.toNat + k)) ∧ s'.fb = t.fb :=
  by
  let s : State := (State.reset.setReg 0 6).setMem (State.reset.mem.writeWord 0 0xA55A)
  let s2 : State := (s.setReg 2 70).setFb (s.fb.blit 0 6 [0xA5, 0x5A])
  exact ⟨s, _, s2, _, rfl, rfl, by decide, by decide, fun _ _ => rfl, rfl⟩

/-- DataFaultLowest: the four instructions, below and above the end of memory. -/
theorem witness_DataFaultLowest :
    exec (.drw 0 1 2) (State.reset.setI 1790) = .fault (.dataReadOutOfRange 1791)
    ∧ exec (.ldm 1) (State.reset.setI 2000) = .fault (.dataReadOutOfRange 2000)
    ∧ exec (.bcd 0) (State.reset.setI 1789) = .fault (.dataWriteOutOfRange 1791)
    ∧ exec (.st 15) (State.reset.setI 0xFFFF) = .fault (.dataWriteOutOfRange 0xFFFF) :=
  ⟨of_faults (by decide), of_faults (by decide), of_faults (by decide), of_faults (by decide)⟩

/-- FaultRepeats: program P6, a RET at depth 0. -/
theorem witness_FaultRepeats :
    step (at_ 0 0x00EE) = .fault (.stackUnderflow 0) :=
  of_faults (by decide)

/-- MemoryWriters: BCD and ST each change a byte. -/
theorem witness_MemoryWriters :
    (∃ t, exec (.bcd 0) (State.reset.setReg 0 100) = .next t ∧ t.mem.read 0 ≠ State.reset.mem.read 0)
    ∧ ∃ t, exec (.st 1) (State.reset.setReg 0 7) = .next t ∧ t.mem.read 0 ≠ State.reset.mem.read 0 :=
  ⟨⟨_, rfl, by decide⟩, ⟨_, rfl, by decide⟩⟩

/-- KeyStateReads: SKP of key 0 with key 7 changed. -/
theorem witness_KeyStateReads :
    (∃ t, exec (.skp 0) State.reset = .next t) ∧ (∀ x, Instr.skp 2 = .skp x ∨ Instr.skp 2 = .sknp x → ∀ k : Fin 16,
      k.val = (State.reset.reg x).toNat → (State.reset.setKey 7 true).key[k] = State.reset.key[k]) :=
  ⟨⟨_, rfl⟩, by
    rintro x (h | h) k hk
    · cases h
      have : k = 0 := Fin.ext hk
      subst this; decide
    · cases h⟩

/-- FrameBufferWriters: CLS changes a lit pixel. -/
theorem witness_FrameBufferWriters :
    ∃ t, exec .cls (State.reset.setFb (FrameBuffer.blank.xorPixel 3 7 true)) = .next t
    ∧ t.fb ≠ (FrameBuffer.blank.xorPixel 3 7 true) :=
  ⟨_, rfl, fun h => absurd (congrArg (fun fb => FrameBuffer.pixel fb 3 7) h) (by decide)⟩

/-- IndexWriters: LD I changes it. -/
theorem witness_IndexWriters :
    ∃ t, exec (.ldI 0x100#12) State.reset = .next t ∧ t.I ≠ State.reset.I :=
  ⟨_, rfl, by decide⟩

/-- DepthWriters: CALL, RET and another instruction each give a next state. -/
theorem witness_DepthWriters :
    (∃ t, exec (.call 0#12) (State.reset.setSp 14) = .next t) ∧ (∃ t, exec .ret (State.reset.setSp 1) = .next t)
    ∧ ∃ t, exec (.nop 0#16) State.reset = .next t :=
  ⟨⟨_, rfl⟩, ⟨_, rfl⟩, ⟨_, rfl⟩⟩

/-- FlagWriters: one instruction of each kind changes VF. -/
theorem witness_FlagWriters :
    (∃ t, exec (.addReg 0 0) (State.reset.setReg 0 0x80) = .next t ∧ t.reg 15 ≠ (State.reset.setReg 0 0x80).reg 15)
    ∧ (∃ t, exec (.ldImm 15 1) State.reset = .next t ∧ t.reg 15 ≠ State.reset.reg 15)
    ∧ ∃ t, exec (.orReg 15 0) (State.reset.setReg 0 1) = .next t ∧ t.reg 15 ≠ (State.reset.setReg 0 1).reg 15 :=
  ⟨⟨_, rfl, by decide⟩, ⟨_, rfl, by decide⟩, ⟨_, rfl, by decide⟩⟩

/-- DrawCount: RND and another instruction each give a next state. -/
theorem witness_DrawCount :
    (∃ t, exec (.rnd 3 0) State.reset = .next t) ∧ ∃ t, exec .cls State.reset = .next t :=
  ⟨⟨_, rfl⟩, ⟨_, rfl⟩⟩

/-- HiddenStateUnused: reset, and reset with another pixel and another entry above the cursor; and such a pair that faults. -/
theorem witness_HiddenStateUnused :
    ∃ s s' t : State, Alike s s' ∧ s.fb ≠ s'.fb ∧ s.entry 1 ≠ s'.entry 1 ∧ step s = .next t
      ∧ ∃ u u' f, Alike u u' ∧ u.fb ≠ u'.fb ∧ step u = .fault f :=
  by
  let mark : State → State := fun s =>
    ((s.setSp 1).setPc 5 |>.setSp 0).setFb (FrameBuffer.blank.xorPixel 3 7 true)
  have hfb : State.reset.fb ≠ (FrameBuffer.blank.xorPixel 3 7 true) := fun h =>
    absurd (congrArg (fun fb => FrameBuffer.pixel fb 3 7) h) (by decide)
  obtain ⟨t, ht, -⟩ := of_gives (p := fun _ => true) (o := step State.reset) (by decide)
  exact ⟨State.reset, mark State.reset, t, by unfold Alike; decide, hfb, by decide, ht, State.reset.setPc 1790,
    mark (State.reset.setPc 1790), _, by unfold Alike; decide, hfb, of_faults (f := .fetchOutOfRange 1790) (by decide)⟩

/-- UnloadedRun: the largest number of steps without a fault. -/
theorem witness_UnloadedRun :
    (895 : Nat) ≤ 895 :=
  by decide

/-- ZeroedMemoryRun: a program's one word at 1786 and zeroed memory after it; one step to 1790, and from an odd pc to
1791, where the last clause begins to hold. -/
theorem witness_ZeroedMemoryRun :
    ∃ s : State, s.mem.read 1786 ≠ 0x00#8 ∧ (∀ a, s.pc.toNat ≤ a → a < 1791 → s.mem.read a = 0x00#8)
    ∧ s.pc.toNat + 2 * 1 = 1790 ∧ (s.setPc 1789#16).pc.toNat + 2 * 1 = 1791 :=
  by
  refine ⟨(at_ 1786 0x6001).setPc 1788#16, by decide, fun a h1 h2 => ?_, by decide, by decide⟩
  have h3 : 1788 ≤ a := h1
  obtain rfl | rfl | rfl : a = 1788 ∨ a = 1789 ∨ a = 1790 := by omega
  all_goals decide

/-- HostWriteWordResult: the last slot and the first that is none. -/
theorem witness_HostWriteWordResult :
    (894 : Nat) ≤ 894 ∧ State.reset.mem.wf ∧ 894 < (895 : Nat) :=
  by decide

/-- HostSetKeyResult: the last key and the first number that is none. -/
theorem witness_HostSetKeyResult :
    (15 : Nat) = (15 : Fin 16).val ∧ 15 < (16 : Nat) :=
  by decide

end Sys2Proof.Machine
end

section
/-! SUPPORT. The outcome of every instruction and of every step: the fault the table of spec/60_exceptions.md R180
names, or a next state (spec/00_scope.md R9). -/

namespace Sys2Proof.Machine

/-- The outcome agrees with the fault expected of it: that fault if there is one, else a next state. -/
inductive Agrees : Option Fault → Result → Prop where
  /-- No fault is expected, and the outcome is a next state. -/
  | next (t : State) : Agrees none (.next t)
  /-- The outcome is the expected fault. -/
  | fault (f : Fault) : Agrees (some f) (.fault f)

/-- An outcome that agrees with an expected fault is no refusal. -/
theorem Agrees.next_or_fault {expected : Option Fault} {r : Result} (h : Agrees expected r) :
    (∃ t, r = .next t) ∨ ∃ f, r = .fault f := by
  cases h with
  | next t => exact .inl ⟨t, rfl⟩
  | fault f => exact .inr ⟨f, rfl⟩

/-- An outcome that is a fault on a condition and a next state otherwise agrees with that fault on that condition. -/
theorem agrees_of_eq_ite {p : Prop} [Decidable p] {f : Fault} {t : State} {r : Result}
    (h : r = if p then .fault f else .next t) : Agrees (if p then some f else none) r := by
  subst h
  by_cases hp : p
  · rw [if_pos hp, if_pos hp]; exact .fault f
  · rw [if_neg hp, if_neg hp]; exact .next t

/-- SKP faults exactly when its register numbers no key (spec/41_control_flow.md R118). -/
theorem execSkp_agrees (x : Reg) (s : State) : Agrees (faultOf (.skp x) s) (execSkp x s) := by
  by_cases h : 16 ≤ (s.reg x).toNat
  · rw [execSkp_of_no_key h, faultOf, if_pos h]; exact .fault _
  · rw [execSkp_of_key (k := ⟨(s.reg x).toNat, by omega⟩) rfl, faultOf, if_neg h]; exact .next _

/-- SKNP faults exactly when its register numbers no key (spec/41_control_flow.md R119). -/
theorem execSknp_agrees (x : Reg) (s : State) : Agrees (faultOf (.sknp x) s) (execSknp x s) := by
  by_cases h : 16 ≤ (s.reg x).toNat
  · rw [execSknp_of_no_key h, faultOf, if_pos h]; exact .fault _
  · rw [execSknp_of_key (k := ⟨(s.reg x).toNat, by omega⟩) rfl, faultOf, if_neg h]; exact .next _

/-- Every instruction raises the fault its row of the table names, and completes where its condition fails. -/
theorem exec_agrees (i : Instr) (s : State) : Agrees (faultOf i s) (exec i s) := by
  cases i with
  | ret => exact agrees_of_eq_ite (execRet_eq s)
  | call nnn => exact agrees_of_eq_ite (execCall_eq nnn s)
  | drw x y n => exact agrees_of_eq_ite (execDrw_eq x y n s)
  | bcd x => exact agrees_of_eq_ite (execBcd_eq x s)
  | st x => exact agrees_of_eq_ite (execSt_eq x s)
  | ldm x => exact agrees_of_eq_ite (execLdm_eq x s)
  | skp x => exact execSkp_agrees x s
  | sknp x => exact execSknp_agrees x s
  | cls | jp | seImm | sneImm | seReg | ldImm | addImm | orReg | andReg | xorReg | addReg | subReg | shrReg | shlReg
  | sneReg | ldI | jpV0 | rnd | addI | ldF | nop => exact .next _

/-- Settles O6: a step at an unfetchable pc is the fetch fault; any other is the outcome of an instruction, which
agrees with the table of faults. -/
theorem stepNeverRefuses : Obligations.StepNeverRefuses := by
  unfold Obligations.StepNeverRefuses
  intro s
  by_cases hpc : s.pc.toNat + 1 < 1791
  · rw [step_of_fetchable hpc]
    exact (exec_agrees _ s).next_or_fault
  · exact .inr ⟨_, step_of_unfetchable hpc⟩

end Sys2Proof.Machine
end

section
/-! SUPPORT. Every instruction in one equation: the fault the table of spec/60_exceptions.md R180 names, or the effect
on the state followed by the write of the pc (spec/10_state.md R31). The whole-machine rules about exec are then
facts about the effect. -/

namespace Sys2Proof.Machine

/-- What an instruction that completes does to the state before it writes the pc. -/
def effect (i : Instr) (s : State) : State :=
  match i with
  | .cls => s.setFb FrameBuffer.blank
  | .ret => s.setSp (s.sp - 1)
  | .call _ => s.setSp (s.sp + 1)
  | .ldImm x kk => s.setReg x kk
  | .addImm x kk => s.setReg x (s.reg x + kk)
  | .orReg x y => s.setReg x (s.reg x ||| s.reg y)
  | .andReg x y => s.setReg x (s.reg x &&& s.reg y)
  | .xorReg x y => s.setReg x (s.reg x ^^^ s.reg y)
  | .addReg x y => (s.setReg x (s.reg x + s.reg y)).setFlag (carryFlag (s.reg x) (s.reg x + s.reg y))
  | .subReg x y => (s.setReg x (s.reg x - s.reg y)).setFlag (borrowFlag (s.reg x) (s.reg x - s.reg y))
  | .shrReg x y => (s.setFlag (shrFlag (s.reg y))).setReg x ((s.setFlag (shrFlag (s.reg y))).reg y >>> 1)
  | .shlReg x y => (s.setFlag (shlFlag (s.reg y))).setReg x ((s.setFlag (shlFlag (s.reg y))).reg y <<< 1)
  | .ldI nnn => s.setI (zext16 nnn)
  | .rnd x kk => s.drawn.setReg x (s.drawByte &&& kk)
  | .drw x y n =>
    s.setFb (s.fb.blit ((s.reg y).toNat % 32) ((s.reg x).toNat % 64) (s.mem.readBytes s.I.toNat n))
  | .addI x => s.setI (s.I + zextByte (s.reg x))
  | .ldF x => s.setI (zextByte (s.reg x))
  | .bcd x => s.setMem (s.mem.writeBytes s.I.toNat (decimalDigits (s.reg x)))
  | .st x => s.setMem (s.mem.writeBytes s.I.toNat (s.firstRegs x))
  | .ldm x => s.setV (loadRegs s.V 0 (s.mem.readBytes s.I.toNat x))
  | .jp _ | .seImm _ _ | .sneImm _ _ | .seReg _ _ | .sneReg _ _ | .jpV0 _ | .skp _ | .sknp _ | .nop _ => s

/-- The next state of an instruction that completes. -/
def after (i : Instr) (s : State) : State := (effect i s).setPc (pcAfter i s)

/-- The outcome of a fault condition and of the state reached where it does not hold. -/
def outcome (fault : Option Fault) (t : State) : Result :=
  match fault with
  | some f => .fault f
  | none => .next t

@[simp] theorem outcome_some (f : Fault) (t : State) : outcome (some f) t = .fault f := rfl
@[simp] theorem outcome_none (t : State) : outcome none t = .next t := rfl

theorem outcome_ite {p : Prop} [Decidable p] (f : Fault) (t : State) :
    outcome (if p then some f else none) t = if p then .fault f else .next t := by
  split <;> rfl

theorem outcome_eq_next {fault : Option Fault} {t u : State} :
    outcome fault t = .next u ↔ fault = none ∧ u = t := by
  cases fault <;> simp [eq_comm]

theorem outcome_eq_fault {fault : Option Fault} {t : State} {f : Fault} :
    outcome fault t = .fault f ↔ fault = some f := by
  cases fault <;> simp

/-! ### The pc after an instruction, in the model's operands -/

theorem zext16_eq_ofNat (nnn : Addr12) : zext16 nnn = BitVec.ofNat 16 nnn.toNat :=
  BitVec.eq_of_toNat_eq (by rw [toNat_zext16, BitVec.toNat_ofNat]; omega)

theorem zextByte_add_zext16 (b : Byte) (nnn : Addr12) :
    zextByte b + zext16 nnn = BitVec.ofNat 16 (b.toNat + nnn.toNat) :=
  BitVec.eq_of_toNat_eq (by rw [BitVec.toNat_add, toNat_zextByte, toNat_zext16, BitVec.toNat_ofNat])

/-- The flag of a key number, by the list of the flags. -/
theorem keys_getD {s : State} {n : Nat} {k : Fin 16} (h : n = k.val) : s.key.toList.getD n false = s.keyDown k := by
  simp [h, State.keyDown]

/-! ### The equation -/

theorem execSkp_eq (x : Reg) (s : State) : execSkp x s = outcome (faultOf (.skp x) s) (after (.skp x) s) := by
  by_cases h : 16 ≤ (s.reg x).toNat
  · rw [execSkp_of_no_key h, faultOf, if_pos h, outcome_some]
  · obtain ⟨k, hk⟩ : ∃ k : Fin 16, (s.reg x).toNat = k.val := ⟨⟨_, Nat.lt_of_not_le h⟩, rfl⟩
    rw [execSkp_of_key hk, faultOf, if_neg h, outcome_none, after, pcAfter, keys_getD hk, effect]

theorem execSknp_eq (x : Reg) (s : State) : execSknp x s = outcome (faultOf (.sknp x) s) (after (.sknp x) s) := by
  by_cases h : 16 ≤ (s.reg x).toNat
  · rw [execSknp_of_no_key h, faultOf, if_pos h, outcome_some]
  · obtain ⟨k, hk⟩ : ∃ k : Fin 16, (s.reg x).toNat = k.val := ⟨⟨_, Nat.lt_of_not_le h⟩, rfl⟩
    rw [execSknp_of_key hk, faultOf, if_neg h, outcome_none, after, pcAfter, keys_getD hk, effect]
    simp only [Bool.not_eq_true']

/-- Every instruction is its row of the fault table, its effect and its write of the pc. -/
theorem exec_eq (i : Instr) (s : State) : exec i s = outcome (faultOf i s) (after i s) := by
  cases i with
  | ret => exact (execRet_eq s).trans (outcome_ite _ _).symm
  | call nnn => exact (execCall_eq nnn s).trans (zext16_eq_ofNat nnn ▸ (outcome_ite _ _).symm)
  | drw x y n => exact (execDrw_eq x y n s).trans (outcome_ite _ _).symm
  | bcd x => exact (execBcd_eq x s).trans (outcome_ite _ _).symm
  | st x => exact (execSt_eq x s).trans (outcome_ite _ _).symm
  | ldm x => exact (execLdm_eq x s).trans (outcome_ite _ _).symm
  | skp x => exact execSkp_eq x s
  | sknp x => exact execSknp_eq x s
  | jp nnn => exact congrArg (fun p => Host.Outcome.next (s.setPc p)) ((codeTarget_eq nnn).trans (zext16_eq_ofNat nnn))
  | jpV0 nnn => exact congrArg (fun p => Host.Outcome.next (s.setPc p)) (zextByte_add_zext16 (s.reg 0) nnn)
  | seImm | sneImm | seReg | sneReg => exact congrArg Host.Outcome.next (skipIf_eq _ _)
  | cls | ldImm | addImm | orReg | andReg | xorReg | addReg | subReg | shrReg | shlReg | ldI | rnd | addI | ldF | nop =>
    rfl

/-- An instruction completes exactly where no fault is named, in the state after it. -/
theorem exec_next_iff {i : Instr} {s t : State} : exec i s = .next t ↔ faultOf i s = none ∧ t = after i s := by
  rw [exec_eq, outcome_eq_next]

/-- An instruction raises exactly the fault that is named. -/
theorem exec_fault_iff {i : Instr} {s : State} {f : Fault} : exec i s = .fault f ↔ faultOf i s = some f := by
  rw [exec_eq, outcome_eq_fault]

end Sys2Proof.Machine
end

section
/-! SUPPORT. What an instruction leaves as it was, field by field, and the whole-machine rules of spec/10_state.md that
say it (R22, R25, R31, R34, R36, R38). -/

namespace Sys2Proof.Machine

/-! ### The state after an instruction, field by field -/

@[simp] theorem after_mem (i : Instr) (s : State) : (after i s).mem = (effect i s).mem := rfl
@[simp] theorem after_V (i : Instr) (s : State) : (after i s).V = (effect i s).V := rfl
@[simp] theorem after_I (i : Instr) (s : State) : (after i s).I = (effect i s).I := rfl
@[simp] theorem after_sp (i : Instr) (s : State) : (after i s).sp = (effect i s).sp := rfl
@[simp] theorem after_fb (i : Instr) (s : State) : (after i s).fb = (effect i s).fb := rfl
@[simp] theorem after_key (i : Instr) (s : State) : (after i s).key = (effect i s).key := rfl
@[simp] theorem after_drawIndex (i : Instr) (s : State) : (after i s).drawIndex = (effect i s).drawIndex := rfl
@[simp] theorem after_reg (i : Instr) (s : State) (r : Reg) : (after i s).reg r = (effect i s).reg r := rfl
@[simp] theorem after_pc (i : Instr) (s : State) : (after i s).pc = pcAfter i s := setPc_pc _ _

/-! ### What no effect writes -/

/-- The stack is written by the write of the pc alone. -/
@[simp] theorem effect_stack (i : Instr) (s : State) : (effect i s).stack = s.stack := by cases i <;> rfl

@[simp] theorem effect_key (i : Instr) (s : State) : (effect i s).key = s.key := by cases i <;> rfl

/-- Every entry but the top is as it was. -/
theorem after_entry_of_ne {i : Instr} {s : State} {k : Fin 16} (h : k ≠ (effect i s).sp) :
    (after i s).entry k = s.entry k := by
  rw [after, setPc_entry, if_neg h, State.entry, State.entry, effect_stack]

/-! ### The depth cursor -/

/-- Only RET and CALL move the depth cursor. -/
theorem effect_sp {i : Instr} (s : State) (hcall : ¬ ∃ nnn, i = .call nnn) (hret : i ≠ .ret) :
    (effect i s).sp = s.sp := by
  cases i with
  | call nnn => exact absurd ⟨nnn, rfl⟩ hcall
  | ret => exact absurd rfl hret
  | _ => rfl

/-- A CALL that completes is not at depth 15. -/
theorem sp_ne_of_call {s : State} {nnn : Addr12} (h : faultOf (.call nnn) s = none) : s.sp ≠ 15 := by
  simpa [faultOf] using h

/-- A RET that completes is not at depth 0. -/
theorem sp_ne_of_ret {s : State} (h : faultOf .ret s = none) : s.sp ≠ 0 := by
  simpa [faultOf] using h

/-- The cursor one up, below its largest value. -/
theorem val_succ_of_ne {k : Fin 16} (h : k ≠ 15) : (k + 1).val = k.val + 1 :=
  Fin.val_add_one_of_lt (lt_of_le_of_ne (Fin.le_last k) h)

/-- The cursor one down, above 0. -/
theorem val_pred_of_ne {k : Fin 16} (h : k ≠ 0) : (k - 1).val + 1 = k.val := by
  rw [Fin.val_sub_one_of_ne_zero h]
  exact Nat.sub_add_cancel (Nat.pos_of_ne_zero fun h0 => h (Fin.ext h0))

theorem pred_lt_of_ne {k : Fin 16} (h : k ≠ 0) : k - 1 < k :=
  Fin.sub_one_lt_iff.2 (Fin.pos_of_ne_zero h)

/-- The callers below the new cursor, and the old top after a CALL, are entries up to the old cursor. -/
theorem le_sp_of_lt_effect_sp {i : Instr} {s : State} (hf : faultOf i s = none) {k : Fin 16}
    (hk : k < (effect i s).sp) : k ≤ s.sp := by
  cases i with
  | call nnn =>
    have hup : (s.sp + 1).val = s.sp.val + 1 := val_succ_of_ne (sp_ne_of_call hf)
    have hk : k.val < (s.sp + 1).val := hk
    exact Fin.le_def.2 (by omega)
  | ret =>
    exact le_of_lt (lt_trans hk (pred_lt_of_ne (sp_ne_of_ret hf)))
  | _ => exact le_of_lt hk

/-- Settles O46: by the condition each of CALL and RET completes under. -/
theorem depthWriters : Obligations.DepthWriters := by
  unfold Obligations.DepthWriters
  intro i s t h
  obtain ⟨hf, rfl⟩ := exec_next_iff.1 h
  refine ⟨?_, ?_, effect_sp s⟩
  · rintro ⟨nnn, rfl⟩
    exact val_succ_of_ne (sp_ne_of_call hf)
  · rintro rfl
    exact val_pred_of_ne (sp_ne_of_ret hf)

/-! ### Frame buffer, keys and draws -/

/-- Settles O44: the effect of every instruction but CLS and DRW keeps the frame buffer. -/
theorem frameBufferWriters : Obligations.FrameBufferWriters := by
  unfold Obligations.FrameBufferWriters
  intro i s t h hfb
  obtain ⟨-, rfl⟩ := exec_next_iff.1 h
  rw [after_fb] at hfb
  cases i with
  | cls => exact .inl rfl
  | drw x y n => exact .inr ⟨x, y, n, rfl⟩
  | _ => exact absurd rfl hfb

/-- Settles O48: the effect of every instruction but RND keeps the draw position. -/
theorem drawCount : Obligations.DrawCount := by
  unfold Obligations.DrawCount
  intro i s t h
  obtain ⟨-, rfl⟩ := exec_next_iff.1 h
  rw [after_drawIndex]
  refine ⟨?_, fun hrnd => ?_⟩
  · rintro ⟨x, kk, rfl⟩
    rfl
  · cases i with
    | rnd x kk => exact absurd ⟨x, kk, rfl⟩ hrnd
    | _ => rfl

/-! ### The flag register -/

/-- A write that changes VF is a write of VF. -/
theorem eq_flag_of_setReg {s : State} {x : Reg} {b : Byte} (h : (s.setReg x b).reg 15 ≠ s.reg 15) : x = 15 := by
  by_contra hx
  exact h (by rw [setReg_reg, if_neg (Ne.symm hx)])

/-- A load of at most 15 bytes from V0 on does not reach VF. -/
theorem loadRegs_flag (v : Vector Byte 16) {bytes : List Byte} (h : bytes.length ≤ 15) :
    (loadRegs v 0 bytes)[15] = v[15] := by
  rw [loadRegs_get _ _ _ _ (by omega), dif_neg (by omega)]

/-- LDM never writes VF, its largest count being 15. -/
theorem effect_ldm_flag (x : Count) (s : State) : (effect (.ldm x) s).reg 15 = s.reg 15 :=
  loadRegs_flag _ (by rw [Memory.length_readBytes]; omega)

/-- Settles O47: the effect of any other instruction writes no register, or a register that is not VF. -/
theorem flagWriters : Obligations.FlagWriters := by
  unfold Obligations.FlagWriters
  intro i s t h hflag
  obtain ⟨-, rfl⟩ := exec_next_iff.1 h
  rw [after_reg] at hflag
  cases i with
  | addReg x y => exact .inl ⟨x, y, .inl rfl⟩
  | subReg x y => exact .inl ⟨x, y, .inr (.inl rfl)⟩
  | shrReg x y => exact .inl ⟨x, y, .inr (.inr (.inl rfl))⟩
  | shlReg x y => exact .inl ⟨x, y, .inr (.inr (.inr rfl))⟩
  | ldImm x kk => exact .inr (.inl ⟨kk, .inl (by rw [eq_flag_of_setReg hflag])⟩)
  | addImm x kk => exact .inr (.inl ⟨kk, .inr (.inl (by rw [eq_flag_of_setReg hflag]))⟩)
  | rnd x kk => exact .inr (.inl ⟨kk, .inr (.inr (by rw [eq_flag_of_setReg (s := s.drawn) hflag]))⟩)
  | orReg x y => exact .inr (.inr ⟨y, .inl (by rw [eq_flag_of_setReg hflag])⟩)
  | andReg x y => exact .inr (.inr ⟨y, .inr (.inl (by rw [eq_flag_of_setReg hflag]))⟩)
  | xorReg x y => exact .inr (.inr ⟨y, .inr (.inr (by rw [eq_flag_of_setReg hflag]))⟩)
  | ldm x => exact absurd (effect_ldm_flag x s) hflag
  | _ => exact absurd rfl hflag

/-! ### The pc -/

/-- Settles O16: an instruction that completes ends with the write of that pc; a CALL writes it one entry up; a fault
keeps the whole state. -/
theorem pcAfter_holds : Obligations.PcAfter := by
  unfold Obligations.PcAfter
  refine ⟨fun i s t h => ?_, fun s t nnn h => ?_, fun s f h => ?_⟩
  · obtain ⟨-, rfl⟩ := exec_next_iff.1 h
    exact after_pc i s
  · obtain ⟨hf, rfl⟩ := exec_next_iff.1 h
    have hup : (s.sp + 1).val = s.sp.val + 1 := val_succ_of_ne (sp_ne_of_call hf)
    have hne : s.sp ≠ s.sp + 1 := fun heq => by
      rw [← heq] at hup; omega
    exact after_entry_of_ne hne
  · simp only [hostApply, State.hostStep, h]

end Sys2Proof.Machine
end

section
/-! SUPPORT. What an outcome depends on: two states that agree on what an instruction reads have the same faults, effects
and pcs (spec/10_state.md R26, R34, R36). -/

namespace Sys2Proof.Machine

/-! ### The key flags -/

theorem faultOf_withKeys (i : Instr) (s : State) (key : Vector Bool 16) :
    faultOf i (s.withKeys key) = faultOf i s := by
  cases i <;> rfl

theorem effect_withKeys (i : Instr) (s : State) (key : Vector Bool 16) :
    effect i (s.withKeys key) = (effect i s).withKeys key := by
  cases i <;> rfl

theorem withKeys_outcome (fault : Option Fault) (t : State) (key : Vector Bool 16) :
    withKeys (outcome fault t) key = outcome fault (t.withKeys key) := by
  cases fault <;> rfl

/-- Flag lists that agree at a number that may be a key's give the same flag for it. -/
theorem getD_congr_key {u v : Vector Bool 16} {n : Nat} (h : ∀ k : Fin 16, k.val = n → u[k] = v[k]) :
    u.toList.getD n false = v.toList.getD n false := by
  by_cases hn : n < 16
  · simpa [hn] using h ⟨n, hn⟩ rfl
  · simp [hn]

/-- Only SKP and SKNP look at the key flags for the pc, and they at the flag of V[x] alone. -/
theorem pcAfter_withKeys (i : Instr) (s : State) (key : Vector Bool 16)
    (h : ∀ x, i = .skp x ∨ i = .sknp x → ∀ k : Fin 16, k.val = (s.reg x).toNat → key[k] = s.key[k]) :
    pcAfter i (s.withKeys key) = pcAfter i s := by
  cases i with
  | skp x => simp only [pcAfter, withKeys_key, withKeys_reg, withKeys_pc, getD_congr_key (h x (.inl rfl))]
  | sknp x => simp only [pcAfter, withKeys_key, withKeys_reg, withKeys_pc, getD_congr_key (h x (.inr rfl))]
  | _ => rfl

/-- Settles O43: no effect writes the keys; fault, effect and pc of an instruction are the same for the other flags. -/
theorem keyStateReads : Obligations.KeyStateReads := by
  unfold Obligations.KeyStateReads
  refine ⟨fun i s t h => ?_, fun i s key hkey => ?_⟩
  · obtain ⟨-, rfl⟩ := exec_next_iff.1 h
    rw [after_key, effect_key]
  · rw [exec_eq, exec_eq, withKeys_outcome, faultOf_withKeys, after, effect_withKeys, pcAfter_withKeys i s key hkey]
    rfl

end Sys2Proof.Machine
end

section
/-! SUPPORT. The frame buffer and the stack entries above the cursor are read by nothing (spec/10_state.md R26, R34). -/

namespace Sys2Proof.Machine

/-- The state with another frame buffer and another stack. -/
def State.withHidden (s : State) (fb : FrameBuffer) (stack : Vector Word 16) : State :=
  { s with fb := fb, stack := stack }

/-- States that are alike differ in frame buffer and stack alone. -/
theorem Alike.exists_withHidden {s s' : State} (h : Alike s s') : ∃ fb stack, s' = s.withHidden fb stack := by
  obtain ⟨hmem, hV, hI, hsp, -, hkey, hdraw⟩ := h
  refine ⟨s'.fb, s'.stack, ?_⟩
  rw [State.withHidden, hmem, hV, hI, hsp, hkey, hdraw]

section
variable {s : State} {fb : FrameBuffer} {stack : Vector Word 16}

theorem Alike.entry_eq (h : Alike s (s.withHidden fb stack)) {k : Fin 16} (hk : k ≤ s.sp) :
    (s.withHidden fb stack).entry k = s.entry k := by
  obtain ⟨-, -, -, -, hentry, -⟩ := h
  exact (hentry k hk).symm

theorem Alike.pc_eq (h : Alike s (s.withHidden fb stack)) : (s.withHidden fb stack).pc = s.pc :=
  h.entry_eq (le_refl s.sp)

theorem faultOf_withHidden (i : Instr) (h : Alike s (s.withHidden fb stack)) :
    faultOf i (s.withHidden fb stack) = faultOf i s := by
  cases i with
  | call | ret => rw [faultOf, h.pc_eq]; rfl
  | _ => rfl

theorem pcAfter_withHidden {i : Instr} (h : Alike s (s.withHidden fb stack)) (hf : faultOf i s = none) :
    pcAfter i (s.withHidden fb stack) = pcAfter i s := by
  cases i with
  | jp | call | jpV0 => rfl
  | ret =>
    exact congrArg (· + 2#16) (h.entry_eq (k := s.sp - 1) (le_of_lt (pred_lt_of_ne (sp_ne_of_ret hf))))
  | _ => rw [pcAfter, h.pc_eq]; rfl

/-- Every effect but those on the frame buffer is the same, and none touches the stack. -/
theorem effect_withHidden (i : Instr) (s : State) (fb : FrameBuffer) (stack : Vector Word 16) :
    ∃ fb', effect i (s.withHidden fb stack) = (effect i s).withHidden fb' stack :=
  ⟨(effect i (s.withHidden fb stack)).fb, by cases i <;> rfl⟩

/-- An instruction that completes keeps states alike. -/
theorem after_alike {i : Instr} (h : Alike s (s.withHidden fb stack)) (hf : faultOf i s = none) :
    Alike (after i s) (after i (s.withHidden fb stack)) := by
  obtain ⟨fb', heffect⟩ := effect_withHidden i s fb stack
  have hsp : (effect i (s.withHidden fb stack)).sp = (effect i s).sp := (congrArg State.sp heffect).trans rfl
  have hentry (k : Fin 16) (hk : k ≤ (after i s).sp) :
      (after i s).entry k = (after i (s.withHidden fb stack)).entry k := by
    by_cases htop : k = (effect i s).sp
    · rw [after, after, setPc_entry, setPc_entry, if_pos htop, if_pos (hsp ▸ htop), pcAfter_withHidden h hf]
    · rw [after_entry_of_ne htop, after_entry_of_ne (hsp ▸ htop)]
      exact (h.entry_eq (le_sp_of_lt_effect_sp hf (lt_of_le_of_ne hk htop))).symm
  exact ⟨(congrArg State.mem heffect).symm, (congrArg State.V heffect).symm, (congrArg State.I heffect).symm, hsp.symm,
    hentry, (congrArg State.key heffect).symm, (congrArg State.drawIndex heffect).symm⟩

end

/-- Settles O49: both states fetch the same word, whose instruction has the same fault or alike next states. -/
theorem hiddenStateUnused : Obligations.HiddenStateUnused := by
  unfold Obligations.HiddenStateUnused
  intro s s' h
  obtain ⟨fb, stack, rfl⟩ := h.exists_withHidden
  have hpc := h.pc_eq
  by_cases hfetch : s.pc.toNat + 1 < 1791
  · rw [step_of_fetchable hfetch, step_of_fetchable (hpc ▸ hfetch), hpc]
    refine ⟨fun t ht => ?_, fun f hf => ?_⟩
    · obtain ⟨hf, rfl⟩ := exec_next_iff.1 ht
      exact ⟨_, exec_next_iff.2 ⟨(faultOf_withHidden _ h).trans hf, rfl⟩, after_alike h hf⟩
    · exact exec_fault_iff.2 ((faultOf_withHidden _ h).trans (exec_fault_iff.1 hf))
  · rw [step_of_unfetchable hfetch, step_of_unfetchable (hpc ▸ hfetch), hpc]
    exact ⟨fun t ht => (nomatch ht), fun f hf => hf⟩

end Sys2Proof.Machine
end

section
/-! SUPPORT. The invariant of every step (spec/10_state.md R32, spec/20_memory.md R51). -/

namespace Sys2Proof.Machine

/-! ### Memory -/

/-- An access that does not run off ends at or below 1791. -/
theorem length_le_of_not_runsOff {s : State} {bytes : List Byte} (h : ¬ s.RunsOff bytes.length) :
    bytes = [] ∨ s.I.toNat + bytes.length ≤ 1791 := by
  rcases Nat.eq_zero_or_pos bytes.length with h0 | hpos
  · exact .inl (List.eq_nil_of_length_eq_zero h0)
  · exact .inr (by by_contra hlt; exact h ⟨hpos, by omega⟩)

/-- BCD and ST write existing addresses alone where they complete, and nothing else writes memory. -/
theorem effect_mem_wf {i : Instr} {s : State} (hm : s.mem.wf) (hf : faultOf i s = none) : (effect i s).mem.wf := by
  cases i with
  | bcd x =>
    have hin : ¬ s.RunsOff 3 := by simpa [faultOf] using hf
    exact Memory.wf_writeBytes hm (length_le_of_not_runsOff hin)
  | st x =>
    have hin : ¬ s.RunsOff x := by simpa [faultOf] using hf
    exact Memory.wf_writeBytes hm (length_le_of_not_runsOff (by rwa [length_firstRegs]))
  | _ => exact hm

/-! ### The pc -/

/-- From a fetchable pc and fetchable callers, the pc after an instruction is at most 255 + 4095 (JP V0,nnn). -/
theorem pcAfter_le {i : Instr} {s : State} (hpc : s.pc.toNat ≤ 1789) (hcallers : s.CallersFetchable)
    (hf : faultOf i s = none) : (pcAfter i s).toNat ≤ 4350 := by
  have two : (s.pc + 2#16).toNat ≤ 4350 := by simp only [BitVec.toNat_add, BitVec.toNat_ofNat]; omega
  have four : (s.pc + 4#16).toNat ≤ 4350 := by simp only [BitVec.toNat_add, BitVec.toNat_ofNat]; omega
  have skip (cond : Bool) : (if cond = true then s.pc + 4#16 else s.pc + 2#16).toNat ≤ 4350 := by
    split
    · exact four
    · exact two
  cases i with
  | jp nnn | call nnn => rw [pcAfter, BitVec.toNat_ofNat]; omega
  | jpV0 nnn => rw [pcAfter, BitVec.toNat_ofNat]; omega
  | ret =>
    have hcaller := hcallers (s.sp - 1) (pred_lt_of_ne (sp_ne_of_ret hf))
    simp only [pcAfter, BitVec.toNat_add, BitVec.toNat_ofNat]
    omega
  | seImm | sneImm | seReg | sneReg | skp | sknp => exact skip _
  | _ => exact two

/-! ### The invariant -/

/-- An instruction at a fetchable pc keeps the invariant: below the new cursor lie old callers and, after a CALL, the
old pc. -/
theorem after_inv {i : Instr} {s : State} (hinv : s.Inv) (hpc : s.pc.toNat ≤ 1789) (hf : faultOf i s = none) :
    (after i s).Inv := by
  obtain ⟨hm, hcallers, -⟩ := hinv
  refine ⟨effect_mem_wf hm hf, fun k hk => ?_, ?_⟩
  · rw [after_entry_of_ne (ne_of_lt hk)]
    rcases lt_or_eq_of_le (le_sp_of_lt_effect_sp hf hk) with hlt | rfl
    · exact hcallers k hlt
    · exact hpc
  · rw [after_pc]
    exact pcAfter_le hpc hcallers hf

/-- Settles O3: a step that gives a next state executed an instruction at a fetchable pc. -/
theorem stepKeepsInv : Obligations.StepKeepsInv := by
  unfold Obligations.StepKeepsInv
  intro s t hinv h
  obtain ⟨hfetch, i, hexec⟩ := step_next h
  obtain ⟨hf, rfl⟩ := exec_next_iff.1 hexec
  exact after_inv hinv (by omega) hf

/-! ### Reset -/

/-- Settles O1: every component of the reset state is a list without cells, a zero or a vector of zeros. -/
theorem resetState : Obligations.ResetState := by
  unfold Obligations.ResetState
  have hentry (k : Fin 16) : State.reset.entry k = 0x0000#16 := by simp [State.entry, State.reset]
  refine ⟨fun a => Memory.read_nil a, fun r => ?_, rfl, rfl, hentry, hentry 0, FrameBuffer.pixel_blank, fun k => ?_⟩
  · simp [State.reg, State.reset]
  · simp [State.keyDown, State.reset]

/-- Settles O2: no cell is listed, the cursor is 0, so there is no caller, and the pc is 0. -/
theorem resetInv : Obligations.ResetInv := by
  unfold Obligations.ResetInv
  refine ⟨⟨List.Pairwise.nil, fun c hc => (nomatch hc)⟩, fun k hk => absurd hk (Fin.not_lt_zero k), ?_⟩
  decide

end Sys2Proof.Machine
end

section
/-! SUPPORT. The host's key flags and frame-buffer read-out (spec/10_state.md R33, R35, R37). -/

namespace Sys2Proof.Machine

/-! ### HostSetKey -/

theorem hostSetKey_of_key (s : State) (j : Fin 16) (down : Bool) :
    s.hostSetKey j.val down = some (s.setKey j down) := dif_pos j.isLt

theorem hostSetKey_of_no_key (s : State) {k : Nat} (h : 15 < k) (down : Bool) : s.hostSetKey k down = none :=
  dif_neg (Nat.not_lt.2 h)

/-- Settles O53: the state with that one flag set, or the refusal, which keeps the state. -/
theorem hostSetKeyResult : Obligations.HostSetKeyResult := by
  unfold Obligations.HostSetKeyResult
  intro s k down
  refine ⟨?_, fun hk => ?_⟩
  · rintro j rfl
    refine ⟨s.setKey j down, ?_, ?_, fun i hi => ?_, rfl⟩
    · rw [hostApply, hostSetKey_of_key, orRefused]
    · rw [setKey_keyDown, if_pos rfl]
    · rw [setKey_keyDown, if_neg hi]
  · rw [hostApply, hostSetKey_of_no_key s hk, orRefused]

/-! ### The read-out -/

/-- The view of the host is the flattened frame buffer. -/
theorem frameView_eq (s : State) : s.frameView = s.fb.flatten.toList := by
  simp only [State.frameView, Vector.flatten, Vector.toList, Array.toList_flatten, Array.toList_map, List.map_map]
  rfl

/-- The pixel of row `row` and column `col` stands at `64*row + col`. -/
theorem getElem_flatten_pixel (fb : FrameBuffer) (row : Fin 32) (col : Fin 64) (h : 64 * row.val + col.val < 32 * 64) :
    fb.flatten[64 * row.val + col.val] = fb.pixel row col := by
  have hdiv : (64 * row.val + col.val) / 64 = row.val := by omega
  have hmod : (64 * row.val + col.val) % 64 = col.val := by omega
  simp only [Vector.getElem_flatten, hdiv, hmod, FrameBuffer.pixel, Fin.getElem_fin]

/-- Settles O54: by the index of every pixel in the flattened frame buffer. -/
theorem frameReadOut : Obligations.FrameReadOut := by
  unfold Obligations.FrameReadOut
  intro s
  refine ⟨s.frameView, rfl, ?_, fun row col => ?_⟩
  · rw [frameView_eq, Vector.length_toList]
  · have h : 64 * row.val + col.val < 32 * 64 := by omega
    rw [frameView_eq, ← getElem_flatten_pixel s.fb row col h]
    simp [h]

end Sys2Proof.Machine
end

section
/-! SUPPORT. Main memory (spec/20_memory.md): who writes it and where (R59), the address a data fault reports (R56), the
fetch after a store (R64) and the host's write of a word (R66). -/

namespace Sys2Proof.Machine

/-! ### The writers of memory -/

/-- A byte that a write of bytes changed is one of those written, in every memory. -/
theorem Memory.mem_range_of_read_writeBytes_ne {m : Memory} {a a' : Nat} {bytes : List Byte}
    (h : (m.writeBytes a bytes).read a' ≠ m.read a') : a ≤ a' ∧ a' < a + bytes.length := by
  by_contra hout
  exact h (Memory.read_writeBytes_outside m bytes hout)

/-- Settles O42: the effects of BCD and ST write the bytes they store at I onward, the other effects keep memory. -/
theorem memoryWriters : Obligations.MemoryWriters := by
  unfold Obligations.MemoryWriters
  intro i s t a h hread
  obtain ⟨-, rfl⟩ := exec_next_iff.1 h
  rw [after_mem] at hread
  cases i with
  | bcd x => exact .inl ⟨⟨x, rfl⟩, Memory.mem_range_of_read_writeBytes_ne hread⟩
  | st n => exact .inr ⟨n, rfl, length_firstRegs s n ▸ Memory.mem_range_of_read_writeBytes_ne hread⟩
  | _ => exact absurd rfl hread

/-! ### The address of a data fault -/

/-- The fault of an access that may run off reports `lowestBad`, whatever its kind. -/
theorem eq_lowestBad_of_fault {s : State} {a c : Nat} {kind : Nat → Fault} (hkind : kind.Injective)
    (h : (if s.RunsOff c then some (kind s.lowestBad) else none) = some (kind a)) :
    s.RunsOff c ∧ a = s.lowestBad := by
  rw [Option.ite_none_right_eq_some, Option.some.injEq] at h
  obtain ⟨hoff, haddr⟩ := h
  exact ⟨hoff, (hkind haddr).symm⟩

theorem dataReadOutOfRange_injective : Fault.dataReadOutOfRange.Injective := fun _ _ h => Fault.dataReadOutOfRange.inj h

theorem dataWriteOutOfRange_injective : Fault.dataWriteOutOfRange.Injective :=
  fun _ _ h => Fault.dataWriteOutOfRange.inj h

/-- `lowestBad` is the least of the addresses of an access that runs off which do not exist. -/
theorem lowestBad_spec {s : State} {c : Nat} (h : s.RunsOff c) :
    1791 ≤ s.lowestBad ∧ s.I.toNat ≤ s.lowestBad ∧ s.lowestBad < s.I.toNat + c
      ∧ ∀ b, s.I.toNat ≤ b → 1791 ≤ b → s.lowestBad ≤ b := by
  obtain ⟨hpos, hend⟩ := h
  exact ⟨le_max_right _ _, le_max_left _ _, max_lt (by omega) (by omega), fun b hI hb => max_le hI hb⟩

/-- Settles O40: each of the four instructions faults where its access runs off, and reports `lowestBad`. -/
theorem dataFaultLowest : Obligations.DataFaultLowest := by
  unfold Obligations.DataFaultLowest
  intro i s a c h
  have hbad : s.RunsOff c ∧ a = s.lowestBad := by
    simp only [exec_fault_iff] at h
    obtain ⟨hf, ⟨x, y, n, rfl, rfl⟩ | ⟨n, rfl, rfl⟩⟩ | ⟨hf, ⟨x, rfl, rfl⟩ | ⟨n, rfl, rfl⟩⟩ := h
    · exact eq_lowestBad_of_fault dataReadOutOfRange_injective hf
    · exact eq_lowestBad_of_fault dataReadOutOfRange_injective hf
    · exact eq_lowestBad_of_fault dataWriteOutOfRange_injective hf
    · exact eq_lowestBad_of_fault dataWriteOutOfRange_injective hf
  obtain ⟨hoff, rfl⟩ := hbad
  exact lowestBad_spec hoff

/-! ### The fetch after a store -/

/-- Where the store of some bytes at I completes, a fetch at two neighbouring ones reads the word they form. -/
theorem fetch_setPc_of_stored {s t : State} (hm : s.mem.wf) {bytes : List Byte} {p : Word} {k : Nat}
    (hin : ¬ s.RunsOff bytes.length) (hmem : t.mem = s.mem.writeBytes s.I.toNat bytes) (hp : p.toNat = s.I.toNat + k)
    (hk : k + 1 < bytes.length) : (t.setPc p).fetch = .ok (wordOfBytes bytes[k] bytes[k + 1]) := by
  have hend : s.I.toNat + bytes.length ≤ 1791 :=
    (length_le_of_not_runsOff hin).resolve_left (List.ne_nil_of_length_pos (by omega))
  have hhigh : t.mem.read p.toNat = bytes[k] := by
    rw [hmem, hp, Memory.read_writeBytes hm hend]
  have hlow : t.mem.read (p.toNat + 1) = bytes[k + 1] := by
    rw [hmem, hp, Nat.add_assoc, Memory.read_writeBytes hm hend]
  rw [fetch_eq, setPc_pc, setPc_mem, if_pos (by omega), hhigh, hlow]

theorem length_decimalDigits (v : Byte) : (decimalDigits v).length = 3 := rfl

/-- Settles O35: an ST or BCD that completes wrote its bytes to existing addresses, two of which are fetched. -/
theorem storeSeenByFetch : Obligations.StoreSeenByFetch := by
  unfold Obligations.StoreSeenByFetch
  intro s t p hm
  refine ⟨fun x r q h hq hqx hp => ?_, fun x h => ?_⟩
  · obtain ⟨hf, rfl⟩ := exec_next_iff.1 h
    have hin : ¬ s.RunsOff x := by simpa [faultOf] using hf
    have hk : r.val + 1 < (s.firstRegs x).length := by rw [length_firstRegs, ← hq]; exact hqx
    rw [fetch_setPc_of_stored hm (by rwa [length_firstRegs]) rfl hp hk, getElem_firstRegs, getElem_firstRegs]
    simp only [← hq, Fin.eta]
  · obtain ⟨hf, rfl⟩ := exec_next_iff.1 h
    have hin : ¬ s.RunsOff 3 := by simpa [faultOf] using hf
    have fetched (k : Nat) (hk : k + 1 < (decimalDigits (s.reg x)).length) (hp : p.toNat = s.I.toNat + k) :=
      fetch_setPc_of_stored (t := after (.bcd x) s) (bytes := decimalDigits (s.reg x)) hm hin rfl hp hk
    exact ⟨fetched 0 (by rw [length_decimalDigits]; decide), fetched 1 (by rw [length_decimalDigits]; decide)⟩

/-! ### HostWriteWord -/

/-- What the two bytes of a word written to a canonical memory read. -/
theorem Memory.read_writeWord {m : Memory} (hm : m.wf) {a : Nat} (ha : a + 1 < 1791) (w : Word) :
    (m.writeWord a w).read a = highByte w ∧ (m.writeWord a w).read (a + 1) = lowByte w :=
  ⟨Memory.read_writeBytes hm (bytes := [highByte w, lowByte w]) (k := 0) ha Nat.zero_lt_two,
    Memory.read_writeBytes hm (bytes := [highByte w, lowByte w]) (k := 1) ha Nat.one_lt_two⟩

/-- A write of a word leaves every other byte alone, in every memory. -/
theorem Memory.read_writeWord_ne (m : Memory) {a a' : Nat} (h : a' ≠ a) (h1 : a' ≠ a + 1) (w : Word) :
    (m.writeWord a w).read a' = m.read a' :=
  Memory.read_writeBytes_outside m _ (by simp only [List.length_cons, List.length_nil]; omega)

theorem hostWriteWord_of_slot (s : State) {p : Nat} (h : p ≤ 894) (w : Word) :
    s.hostWriteWord p w = some (s.setMem (s.mem.writeWord (2 * p) w)) :=
  if_pos (show 2 * p + 1 < 1791 by omega)

theorem hostWriteWord_of_no_slot (s : State) {p : Nat} (h : 894 < p) (w : Word) : s.hostWriteWord p w = none :=
  if_neg (show ¬ 2 * p + 1 < 1791 by omega)

/-- Settles O52: the state with that one word written, or the refusal, which keeps the state. -/
theorem hostWriteWordResult : Obligations.HostWriteWordResult := by
  unfold Obligations.HostWriteWordResult
  intro s p w
  refine ⟨fun hp hm => ?_, fun hp => ?_⟩
  · obtain ⟨hhigh, hlow⟩ := Memory.read_writeWord hm (a := 2 * p) (by omega) w
    refine ⟨s.setMem (s.mem.writeWord (2 * p) w), ?_, hhigh, hlow, fun a h h1 => ?_, rfl⟩
    · rw [hostApply, hostWriteWord_of_slot s hp, orRefused]
    · exact Memory.read_writeWord_ne s.mem h h1 w
  · rw [hostApply, hostWriteWord_of_no_slot s hp, orRefused]

end Sys2Proof.Machine
end

section
/-! SUPPORT. The encoding (spec/30_encoding.md): the words each instruction is decoded from, the encoder and the decoder
as two readings of that one relation (R83, R85, R88), the NOP space (R86) and the table of mask and match (R84). -/

namespace Sys2Proof

/-! ### Words from their fields -/

theorem formatA_fields {w : Word} {f : BitVec 4} (hf : fieldF w = f) : formatA f (fieldNNN w) = w := by
  subst hf
  exact word_ext (by simp only [toNat_formatA, toNat_fieldF, toNat_fieldNNN]; omega)

theorem formatK_fields {w : Word} {f : BitVec 4} {kk : Byte} (hf : fieldF w = f) (hkk : fieldKK w = kk) :
    formatK f (fieldX w) kk = w := by
  subst hf hkk
  exact (eq_formatK w).symm

theorem formatR_fields {w : Word} {f s : BitVec 4} (hf : fieldF w = f) (hs : fieldS w = s) :
    formatR f (fieldX w) (fieldY w) s = w := by
  subst hf hs
  exact (eq_formatR w).symm

theorem fieldF_eq_iff (w : Word) (f : BitVec 4) : fieldF w = f ↔ w.toNat / 4096 = f.toNat := by
  rw [← BitVec.toNat_inj, toNat_fieldF]

/-! ### The words of an instruction -/

/-- The words an instruction is decoded from: the one it is encoded as and, where R85 ignores the low nibble, those
with another low nibble. -/
inductive WordOf : Instr → Word → Prop where
  /-- The word the encoder emits. -/
  | encoded {i : Instr} (h : WellFormed i = true) : WordOf i (encode i)
  /-- SE Vx,Vy with any low nibble. -/
  | seReg (x y : Reg) (low : BitVec 4) : WordOf (.seReg x y) (formatR 0x5#4 x y low)
  /-- SNE Vx,Vy with any low nibble. -/
  | sneReg (x y : Reg) (low : BitVec 4) : WordOf (.sneReg x y) (formatR 0x9#4 x y low)

theorem WordOf.of_encode_eq {i : Instr} {w : Word} (hwf : WellFormed i = true) (h : encode i = w) : WordOf i w :=
  h ▸ .encoded hwf

theorem WordOf.wellFormed {i : Instr} {w : Word} (h : WordOf i w) : WellFormed i = true := by
  cases h with
  | encoded h => exact h
  | seReg | sneReg => rfl

/-! ### Every word is one of the instruction it decodes to -/

theorem wordOf_decodeFamily8 {w : Word} (hf : fieldF w = 0x8#4) : WordOf (decodeFamily8 w) w := by
  unfold decodeFamily8
  split
  case h_8 h1 h2 h3 h4 h5 h6 hE =>
    refine .encoded ((nopSpace_iff w).2 (.inr (.inl ⟨(fieldF_eq_iff w _).1 hf, ?_⟩)))
    simp only [← BitVec.toNat_inj, toNat_fieldS, BitVec.toNat_ofNat, imp_false] at h1 h2 h3 h4 h5 h6 hE
    simp only [List.mem_cons, List.not_mem_nil, or_false]
    omega
  all_goals exact .of_encode_eq rfl (formatR_fields hf ‹_›)

theorem wordOf_decodeFamilyE {w : Word} (hf : fieldF w = 0xE#4) : WordOf (decodeFamilyE w) w := by
  unfold decodeFamilyE
  split
  case h_3 h9E hA1 =>
    simp only [← BitVec.toNat_inj, toNat_fieldKK] at h9E hA1
    exact .encoded ((nopSpace_iff w).2 (.inr (.inr (.inl ⟨(fieldF_eq_iff w _).1 hf, h9E, hA1⟩))))
  all_goals exact .of_encode_eq rfl (formatK_fields hf ‹_›)

theorem wordOf_decodeFamilyF {w : Word} (hf : fieldF w = 0xF#4) : WordOf (decodeFamilyF w) w := by
  unfold decodeFamilyF
  split
  case h_6 h1E h29 h33 h55 h65 =>
    simp only [← BitVec.toNat_inj, toNat_fieldKK] at h1E h29 h33 h55 h65
    exact .encoded ((nopSpace_iff w).2 (.inr (.inr (.inr ⟨(fieldF_eq_iff w _).1 hf, h1E, h29, h33, h55, h65⟩))))
  all_goals exact .of_encode_eq rfl (formatK_fields hf ‹_›)

theorem wordOf_decodeFamily {w : Word} (hcls : w ≠ 0x00E0#16) (hret : w ≠ 0x00EE#16) : WordOf (decodeFamily w) w := by
  unfold decodeFamily
  split
  next hf => exact .of_encode_eq rfl (formatA_fields hf)
  next hf => exact .of_encode_eq rfl (formatA_fields hf)
  next hf => exact .of_encode_eq rfl (formatK_fields hf rfl)
  next hf => exact .of_encode_eq rfl (formatK_fields hf rfl)
  next hf => simpa only [formatR_fields hf rfl] using WordOf.seReg (fieldX w) (fieldY w) (fieldS w)
  next hf => exact .of_encode_eq rfl (formatK_fields hf rfl)
  next hf => exact .of_encode_eq rfl (formatK_fields hf rfl)
  next hf => exact wordOf_decodeFamily8 hf
  next hf => simpa only [formatR_fields hf rfl] using WordOf.sneReg (fieldX w) (fieldY w) (fieldS w)
  next hf => exact .of_encode_eq rfl (formatA_fields hf)
  next hf => exact .of_encode_eq rfl (formatA_fields hf)
  next hf => exact .of_encode_eq rfl (formatK_fields hf rfl)
  next hf => exact .of_encode_eq rfl (formatR_fields hf rfl)
  next hf => exact wordOf_decodeFamilyE hf
  next hf => exact wordOf_decodeFamilyF hf
  next =>
    refine .encoded ((nopSpace_iff w).2 (.inl ⟨?_, fun h => hcls (word_ext h), fun h => hret (word_ext h)⟩))
    simp only [fieldF_eq_iff, BitVec.toNat_ofNat, imp_false] at *
    omega

theorem wordOf_decodeWord (w : Word) : WordOf (decodeWord w) w := by
  unfold decodeWord
  split
  next h => exact h ▸ .encoded rfl
  next hcls =>
    split
    next h => exact h ▸ .encoded rfl
    next hret => exact wordOf_decodeFamily hcls hret

/-! ### The NOP space -/

/-- A NOP is the one instruction whose word is in the NOP space. -/
theorem eq_nop_of_nopSpace_encode {i : Instr} (h : nopSpace (encode i) = true) : i = .nop (encode i) := by
  simp only [nopSpace_iff, List.mem_cons, List.not_mem_nil, or_false] at h
  cases i with
  | nop w => rfl
  | cls | ret => exact absurd h (by decide)
  | jp | call | ldI | jpV0 =>
    simp only [encode, toNat_formatA, BitVec.toNat_ofNat] at h
    omega
  | seImm | sneImm | ldImm | addImm | rnd | skp | sknp | addI | ldF | bcd | st | ldm =>
    simp only [encode, toNat_formatK, BitVec.toNat_ofNat] at h
    omega
  | seReg | sneReg | orReg | andReg | xorReg | addReg | subReg | shrReg | shlReg | drw =>
    simp only [encode, toNat_formatR, BitVec.toNat_ofNat] at h
    omega

/-- SE Vx,Vy and SNE Vx,Vy have no word in the NOP space, whatever its low nibble. -/
theorem family_of_nopSpace {w : Word} (h : nopSpace w = true) : fieldF w ≠ 0x5#4 ∧ fieldF w ≠ 0x9#4 := by
  rw [nopSpace_iff] at h
  simp only [ne_eq, fieldF_eq_iff, BitVec.toNat_ofNat]
  omega

theorem WordOf.eq_nop {i : Instr} {w : Word} (h : WordOf i w) (hw : nopSpace w = true) : i = .nop w := by
  obtain ⟨h5, h9⟩ := family_of_nopSpace hw
  cases h with
  | encoded => exact eq_nop_of_nopSpace_encode hw
  | seReg x y low => exact absurd (fieldF_formatR _ x y low) h5
  | sneReg x y low => exact absurd (fieldF_formatR _ x y low) h9

/-- The word a NOP is decoded from is in the NOP space. -/
theorem WordOf.nopSpace_of_nop {v w : Word} (h : WordOf (.nop v) w) : nopSpace w = true := by
  cases h with
  | encoded hwf => exact hwf

/-! ### The decoder on the words of an instruction -/

theorem decodeWord_nop {w : Word} (h : nopSpace w = true) : decodeWord w = .nop w :=
  (wordOf_decodeWord w).eq_nop h

theorem decodeWord_encode {i : Instr} (h : WellFormed i = true) : decodeWord (encode i) = i := by
  cases i with
  | nop w => exact decodeWord_nop h
  | cls | ret => decide
  | jp | call | ldI | jpV0 | seImm | sneImm | ldImm | addImm | rnd | seReg | sneReg | drw =>
    rw [decodeWord_of_family] <;> simp [encode, decodeFamily]
  | orReg | andReg | xorReg | addReg | subReg | shrReg | shlReg =>
    rw [decodeWord_of_family] <;> simp [encode, decodeFamily, decodeFamily8]
  | skp | sknp => rw [decodeWord_of_family] <;> simp [encode, decodeFamily, decodeFamilyE]
  | addI | ldF | bcd | st | ldm => rw [decodeWord_of_family] <;> simp [encode, decodeFamily, decodeFamilyF]

theorem WordOf.decodeWord_eq {i : Instr} {w : Word} (h : WordOf i w) : decodeWord w = i := by
  cases h with
  | encoded h => exact decodeWord_encode h
  | seReg x y low => rw [decodeWord_of_family] <;> simp [decodeFamily]
  | sneReg x y low => rw [decodeWord_of_family] <;> simp [decodeFamily]

/-- The decoder finds the instruction a word is one of, and only that. -/
theorem decodeWord_eq_iff {i : Instr} {w : Word} : decodeWord w = i ↔ WordOf i w :=
  ⟨fun h => h ▸ wordOf_decodeWord w, WordOf.decodeWord_eq⟩

/-- Settles O8: the two bytes of an instruction form its word, which decodes to the instruction. -/
theorem decodeEncode : Obligations.DecodeEncode := by
  unfold Obligations.DecodeEncode
  intro i rest h
  calc decode (encodeBytes i ++ rest)
    _ = .ok (decodeWord (wordOfBytes (highByte (encode i)) (lowByte (encode i))), rest) := rfl
    _ = .ok (i, rest) := by rw [wordOfBytes_bytes, decodeWord_encode h]

/-- Settles O12: a word decodes to NOP exactly when it is one of a NOP's, those of the NOP space. -/
theorem nopSpaceExact : Obligations.NopSpaceExact := by
  unfold Obligations.NopSpaceExact
  exact fun w => ⟨fun h => (decodeWord_eq_iff.1 h).nopSpace_of_nop, decodeWord_nop⟩

/-! ### The encoder on a decoded word -/

theorem shiftRight_family (w : Word) (f : BitVec 4) : w >>> 12 = f.setWidth 16 ↔ fieldF w = f := by
  rw [fieldF_eq_iff, ← BitVec.toNat_inj, BitVec.toNat_ushiftRight, Nat.shiftRight_eq_div_pow, BitVec.toNat_setWidth,
    Nat.mod_eq_of_lt (by omega)]

/-- Clearing the low nibble. -/
theorem mask_low (f : BitVec 4) (x y : Fin 16) (s : BitVec 4) :
    formatR f x y s &&& 0xFFF0#16 = formatR f x y 0#4 := by
  change (f ++ nibble x ++ nibble y ++ s) &&& (BitVec.allOnes 4 ++ BitVec.allOnes 4 ++ BitVec.allOnes 4 ++ 0#4)
    = f ++ nibble x ++ nibble y ++ 0#4
  simp only [BitVec.and_append, BitVec.and_allOnes, BitVec.and_zero]

/-- The word with its low nibble cleared where R85 ignores it. -/
def emitted (w : Word) : Word := if w >>> 12 = 0x5#16 ∨ w >>> 12 = 0x9#16 then w &&& 0xFFF0#16 else w

theorem emitted_of_ignored {w : Word} (h : fieldF w = 0x5#4 ∨ fieldF w = 0x9#4) : emitted w = w &&& 0xFFF0#16 :=
  if_pos (h.imp (shiftRight_family w _).2 (shiftRight_family w _).2)

theorem emitted_of_kept {w : Word} (h5 : fieldF w ≠ 0x5#4) (h9 : fieldF w ≠ 0x9#4) : emitted w = w :=
  if_neg (not_or.2 ⟨mt (shiftRight_family w _).1 h5, mt (shiftRight_family w _).1 h9⟩)

theorem emitted_encode {i : Instr} (h : WellFormed i = true) : emitted (encode i) = encode i := by
  cases i with
  | seReg x y => exact (emitted_of_ignored (.inl (fieldF_formatR _ _ _ _))).trans (mask_low _ _ _ _)
  | sneReg x y => exact (emitted_of_ignored (.inr (fieldF_formatR _ _ _ _))).trans (mask_low _ _ _ _)
  | nop w =>
    obtain ⟨h5, h9⟩ := family_of_nopSpace h
    exact emitted_of_kept h5 h9
  | cls | ret => decide
  | _ => apply emitted_of_kept <;> simp [encode]

/-- The encoder emits the word an instruction was decoded from, but for the ignored nibble. -/
theorem WordOf.encode_eq {i : Instr} {w : Word} (h : WordOf i w) : encode i = emitted w := by
  cases h with
  | encoded h => exact (emitted_encode h).symm
  | seReg x y low => rw [emitted_of_ignored (.inl (fieldF_formatR _ _ _ _)), mask_low, encode]
  | sneReg x y low => rw [emitted_of_ignored (.inr (fieldF_formatR _ _ _ _)), mask_low, encode]

/-- Settles O9: a word is one of those of the instruction it decodes to. -/
theorem encodeDecode : Obligations.EncodeDecode := by
  unfold Obligations.EncodeDecode
  exact fun w => ⟨(wordOf_decodeWord w).wellFormed, (wordOf_decodeWord w).encode_eq⟩

/-! ### The table -/

/-- Two rows that select one word agree on the bits that both compare. -/
theorem match_and_mask_eq {p q : Word × Word} {w : Word} (hp : rowSelects p w = true) (hq : rowSelects q w = true) :
    p.2 &&& q.1 = q.2 &&& p.1 := by
  rw [rowSelects, beq_iff_eq] at hp hq
  rw [← hp, ← hq, BitVec.and_assoc, BitVec.and_assoc, BitVec.and_comm p.1]

/-- Settles O11: any two rows of the table differ on a bit that both compare. -/
theorem noRowsOverlap : Obligations.NoRowsOverlap := by
  unfold Obligations.NoRowsOverlap
  have hdiffer : opcodeTable.Pairwise (fun p q => p.2 &&& q.1 ≠ q.2 &&& p.1) := by decide
  exact hdiffer.imp fun hne w h => hne (match_and_mask_eq h.1 h.2)

/-- The table selects a row that selects the word, since no other does. -/
theorem tableRow_of_selects {w : Word} {k : Nat} {row : Word × Word} (hrow : opcodeTable[k]? = some row)
    (h : rowSelects row w = true) : tableRow w = k := by
  obtain ⟨hk, rfl⟩ := List.getElem?_eq_some_iff.1 hrow
  refine (List.findIdx_eq hk).2 ⟨h, fun j hj => ?_⟩
  rw [← Bool.not_eq_true]
  exact fun hother => List.pairwise_iff_getElem.1 noRowsOverlap j k (hj.trans hk) hk hj w ⟨hother, h⟩

/-- No row selects a word of the NOP space: where the family is one of the table's, the sub-key is not. -/
theorem tableRow_of_nopSpace {w : Word} (h : nopSpace w = true) : tableRow w = 28 := by
  simp only [nopSpace_iff, List.mem_cons, List.not_mem_nil, or_false] at h
  refine List.findIdx_eq_length.2 ?_
  simp only [opcodeTable, List.cons_append, List.nil_append, List.forall_mem_cons, ← Bool.not_eq_true,
    BitVec.ofNat_eq_ofNat, rowSelects_family, rowSelects_nibble, rowSelects_byte, rowSelects_word,
    BitVec.toNat_ofNat, List.not_mem_nil, false_implies, implies_true, and_true]
  obtain h0 | h8 | hE | hF := h <;> omega

/-- The per-instruction laws of the table as one: the row of an instruction selects the word it is encoded as. -/
theorem encode_selected (i : Instr) : Laws.EncodeRow.Statement i :=
  match i with
  | .cls => Laws.EncodeRow.cls
  | .ret => Laws.EncodeRow.ret
  | .jp nnn => Laws.EncodeRow.jp nnn
  | .call nnn => Laws.EncodeRow.call nnn
  | .seImm x kk => Laws.EncodeRow.seImm x kk
  | .sneImm x kk => Laws.EncodeRow.sneImm x kk
  | .seReg x y => Laws.EncodeRow.seReg x y
  | .ldImm x kk => Laws.EncodeRow.ldImm x kk
  | .addImm x kk => Laws.EncodeRow.addImm x kk
  | .orReg x y => Laws.EncodeRow.orReg x y
  | .andReg x y => Laws.EncodeRow.andReg x y
  | .xorReg x y => Laws.EncodeRow.xorReg x y
  | .addReg x y => Laws.EncodeRow.addReg x y
  | .subReg x y => Laws.EncodeRow.subReg x y
  | .shrReg x y => Laws.EncodeRow.shrReg x y
  | .shlReg x y => Laws.EncodeRow.shlReg x y
  | .sneReg x y => Laws.EncodeRow.sneReg x y
  | .ldI nnn => Laws.EncodeRow.ldI nnn
  | .jpV0 nnn => Laws.EncodeRow.jpV0 nnn
  | .rnd x kk => Laws.EncodeRow.rnd x kk
  | .drw x y n => Laws.EncodeRow.drw x y n
  | .skp x => Laws.EncodeRow.skp x
  | .sknp x => Laws.EncodeRow.sknp x
  | .addI x => Laws.EncodeRow.addI x
  | .ldF x => Laws.EncodeRow.ldF x
  | .bcd x => Laws.EncodeRow.bcd x
  | .st x => Laws.EncodeRow.st x
  | .ldm x => Laws.EncodeRow.ldm x
  | .nop w => Laws.EncodeRow.nop w

/-- The row of an instruction selects every word of it. -/
theorem WordOf.selected {i : Instr} {w : Word} (h : WordOf i w) {row : Word × Word}
    (hrow : opcodeTable[rowOf i]? = some row) : rowSelects row w = true := by
  cases h with
  | encoded => exact encode_selected i row hrow
  | seReg x y low =>
    cases hrow
    exact beq_iff_eq.2 ((mask_formatR _ _ _ _).trans (by decide))
  | sneReg x y low =>
    cases hrow
    exact beq_iff_eq.2 ((mask_formatR _ _ _ _).trans (by decide))

theorem eq_nop_of_no_row {i : Instr} (h : opcodeTable[rowOf i]? = none) : ∃ w, i = .nop w := by
  cases i with
  | nop w => exact ⟨w, rfl⟩
  | _ => nomatch h

/-- Settles O10: the row of the decoded instruction selects the word, or it is a NOP and no row does. -/
theorem decodeFollowsTable : Obligations.DecodeFollowsTable := by
  unfold Obligations.DecodeFollowsTable
  intro w
  cases hrow : opcodeTable[rowOf (decodeWord w)]? with
  | some row => exact (tableRow_of_selects hrow ((wordOf_decodeWord w).selected hrow)).symm
  | none =>
    obtain ⟨v, hv⟩ := eq_nop_of_no_row hrow
    rw [hv, tableRow_of_nopSpace (decodeWord_eq_iff.1 hv).nopSpace_of_nop, rowOf]

/-- Settles O7: each word is written out from its format. -/
theorem decodedWords : Obligations.DecodedWords := by
  unfold Obligations.DecodedWords
  decide

end Sys2Proof
end

section
/-! SUPPORT. The cycle (spec/40_cycle.md): the fetch and decode of a step (R100), a faulting step as the host sees it,
and NOP (R106). -/

namespace Sys2Proof.Machine

/-- Two bytes decode to the instruction of the word they form, and nothing is left. -/
theorem decode_pair_eq_ok_iff {hi lo : Byte} {i : Instr} :
    decode [hi, lo] = .ok (i, []) ↔ decodeWord (wordOfBytes hi lo) = i := by
  simp [decode]

/-- A faulting step leaves the host the state it had at entry (spec/60_exceptions.md R184). -/
theorem hostApply_step_of_fault {s : State} {f : Fault} (h : step s = .fault f) :
    hostApply .step s = (s, .fault f) := by
  rw [hostApply, State.hostStep, h]

/-- Settles O5: a step fetches where both bytes exist and executes the word they form; elsewhere it is the fetch fault. -/
theorem stepRunsDecoded : Obligations.StepRunsDecoded := by
  unfold Obligations.StepRunsDecoded
  refine fun s => ⟨fun hpc => ?_, fun hpc i hi => ?_, fun f hf => ?_⟩
  · exact step_of_unfetchable (Nat.not_lt.2 hpc)
  · rw [step_of_fetchable hpc, decode_pair_eq_ok_iff.1 hi]
  · exact hostApply_step_of_fault hf

/-- Settles O13: a NOP has no fault condition and no effect, so all it does is the write of the pc. -/
theorem nopResult : Obligations.NopResult := by
  unfold Obligations.NopResult
  intro s w
  have hnext : exec (.nop w) s = .next (after (.nop w) s) := exec_next_iff.2 ⟨rfl, rfl⟩
  exact ⟨after (.nop w) s, hnext, after_pc (.nop w) s, frame_setPc s (s.pc + 2#16)⟩

end Sys2Proof.Machine
end

section
/-! SUPPORT. Control transfer (spec/41_control_flow.md): what each of JP, JP V0, CALL, RET and the skips leaves in the
state, as plain updates of the cursor and the pc, and the call-return round trip (R120). -/

namespace Sys2Proof.Machine

/-! ### Jumps and skips: a write of the pc and nothing else -/

/-- An instruction whose next state differs in the pc alone: its new pc and its frame. -/
theorem exists_next_of_setPc {i : Instr} {s : State} {p : Word} (h : exec i s = .next (s.setPc p)) :
    ∃ t, exec i s = .next t ∧ t.pc = p ∧ Frame {} s t :=
  ⟨s.setPc p, h, setPc_pc s p, frame_setPc s p⟩

theorem exec_jp (nnn : Addr12) (s : State) : exec (.jp nnn) s = .next (s.setPc (zext16 nnn)) :=
  congrArg (fun p => Host.Outcome.next (s.setPc p)) (codeTarget_eq nnn)

theorem exec_jpV0 (nnn : Addr12) (s : State) :
    exec (.jpV0 nnn) s = .next (s.setPc (zextByte (s.reg 0) + zext16 nnn)) := rfl

/-- The largest sum, 255 + 4095, is a 16-bit word. -/
theorem toNat_zextByte_add_zext16 (b : Byte) (nnn : Addr12) :
    (zextByte b + zext16 nnn).toNat = b.toNat + nnn.toNat := by
  rw [BitVec.toNat_add, toNat_zextByte, toNat_zext16]
  omega

/-- The end of a skip, by the proposition its condition decides (spec/40_cycle.md R105). -/
theorem next_skipIf (s : State) {cond : Bool} {p : Prop} [Decidable p] (h : cond = true ↔ p) :
    (.next (s.skipIf cond) : Result) = .next (s.setPc (if p then s.pc + 4#16 else s.pc + 2#16)) := by
  rw [skipIf_eq, if_congr h rfl rfl]

/-- Settles O14: the jump writes nnn as the pc, which changes nothing where nnn is the pc. -/
theorem jpResult : Obligations.JpResult := by
  unfold Obligations.JpResult
  intro s nnn
  constructor
  · obtain ⟨t, hnext, hpc, hframe⟩ := exists_next_of_setPc (exec_jp nnn s)
    exact ⟨t, hnext, by rw [hpc, toNat_zext16], hframe⟩
  · intro hself
    have htarget : zext16 nnn = s.pc := BitVec.eq_of_toNat_eq ((toNat_zext16 nnn).trans hself.symm)
    rw [exec_jp, htarget, setPc_self]

/-- Settles O15: the sum fits in the pc, and the jump writes nothing else. -/
theorem jpV0Result : Obligations.JpV0Result := by
  unfold Obligations.JpV0Result
  intro s nnn
  obtain ⟨t, hnext, hpc, hframe⟩ := exists_next_of_setPc (exec_jpV0 nnn s)
  exact ⟨t, hnext, by rw [hpc, toNat_zextByte_add_zext16], hframe⟩

/-- Settles O20: each skip is a write of the pc on the comparison it makes. -/
theorem skipImmResult : Obligations.SkipImmResult := by
  unfold Obligations.SkipImmResult
  intro s x kk
  exact ⟨exists_next_of_setPc (i := .seImm x kk) (next_skipIf s beq_iff_eq),
    exists_next_of_setPc (i := .sneImm x kk) (next_skipIf s bne_iff_ne)⟩

/-- Settles O21: each skip is a write of the pc on the comparison it makes, and every low nibble gives a word of it. -/
theorem skipRegResult : Obligations.SkipRegResult := by
  unfold Obligations.SkipRegResult
  intro s x y
  exact ⟨exists_next_of_setPc (i := .seReg x y) (next_skipIf s beq_iff_eq),
    exists_next_of_setPc (i := .sneReg x y) (next_skipIf s bne_iff_ne),
    fun low => ⟨(WordOf.seReg x y low).decodeWord_eq, (WordOf.sneReg x y low).decodeWord_eq⟩⟩

/-- Settles O22: by whether the register holds the number of a key. -/
theorem skipKeyResult : Obligations.SkipKeyResult := by
  unfold Obligations.SkipKeyResult
  intro s x
  constructor
  · intro k hk
    exact ⟨exists_next_of_setPc (i := .skp x) (execSkp_of_key hk),
      exists_next_of_setPc (i := .sknp x) (execSknp_of_key hk)⟩
  · intro hnone
    exact ⟨execSkp_of_no_key hnone, execSknp_of_no_key hnone⟩

/-! ### CALL and RET: a move of the depth cursor, then a write of the pc -/

/-- A CALL from one depth above which there is another goes there (R112). -/
theorem exec_call_of_depth {s : State} {d : Fin 16} (h : d.val = s.sp.val + 1) (nnn : Addr12) :
    exec (.call nnn) s = .next ((s.setSp d).setPc (zext16 nnn)) := by
  have hmax : s.sp ≠ 15 := fun h15 => by rw [h15] at h; omega
  have hd : s.sp + 1 = d := Fin.ext ((val_succ_of_ne hmax).trans h.symm)
  exact (execCall_eq nnn s).trans (by rw [if_neg hmax, hd])

/-- A RET from one depth below which there is another goes there (R110). -/
theorem exec_ret_of_depth {s : State} {c : Fin 16} (h : s.sp.val = c.val + 1) :
    exec .ret s = .next ((s.setSp c).setPc (s.entry c + 2#16)) := by
  have hmin : s.sp ≠ 0 := fun h0 => by rw [h0] at h; omega
  have hc : s.sp - 1 = c := Fin.ext (by have := val_pred_of_ne hmin; omega)
  exact (execRet_eq s).trans (by rw [if_neg hmin, hc])

/-- A write of the pc after a move of the cursor leaves the old top entry as it was. -/
theorem setSp_setPc_entry_sp {s : State} {k : Fin 16} (h : s.sp ≠ k) (p : Word) :
    ((s.setSp k).setPc p).entry s.sp = s.entry s.sp :=
  (setPc_entry _ _ _).trans (if_neg h)

/-- Settles O17: by the depth, 15 or another. -/
theorem callResult : Obligations.CallResult := by
  unfold Obligations.CallResult
  intro s nnn
  constructor
  · intro hmax
    exact (execCall_eq nnn s).trans (if_pos hmax)
  · intro hmax
    have hup : (s.sp + 1).val = s.sp.val + 1 := val_succ_of_ne hmax
    have hne : s.sp ≠ s.sp + 1 := fun heq => by rw [← heq] at hup; omega
    exact ⟨_, exec_call_of_depth hup nnn, hup, by rw [setPc_pc, toNat_zext16], setSp_setPc_entry_sp hne _,
      frame_setSp_setPc s _ _⟩

/-- Settles O18: by the depth, 0 or one above another. -/
theorem retResult : Obligations.RetResult := by
  unfold Obligations.RetResult
  intro s
  constructor
  · intro hmin
    exact (execRet_eq s).trans (if_pos hmin)
  · intro c hc
    have hne : s.sp ≠ c := fun heq => by rw [heq] at hc; omega
    exact ⟨_, exec_ret_of_depth hc, rfl, setPc_pc _ _, setSp_setPc_entry_sp hne _, frame_setSp_setPc s _ _⟩

/-! ### The round trip (R120) -/

/-- A step writes no stack entry but the one at the depth it ends at. -/
theorem step_entry_of_ne {s t : State} (h : step s = .next t) {k : Fin 16} (hk : k ≠ t.sp) :
    t.entry k = s.entry k := by
  obtain ⟨-, i, hexec⟩ := step_next h
  obtain ⟨-, rfl⟩ := exec_next_iff.1 hexec
  exact after_entry_of_ne hk

/-- Steps that end at depth `d` or deeper leave every entry below `d` as it was. -/
theorem StepsAbove.entry_eq {d k : Fin 16} (hk : k < d) {s t : State} (h : StepsAbove d s t) :
    t.entry k = s.entry k := by
  induction h with
  | refl => rfl
  | tail _ hstep hd ih => exact (step_entry_of_ne hstep (ne_of_lt (lt_of_lt_of_le hk hd))).trans ih

/-- Settles O19: no entry below the new frame is written between the CALL and the RET, so the RET finds the CALL's
address in the caller's entry. -/
theorem callReturn : Obligations.CallReturn := by
  unfold Obligations.CallReturn
  intro s nnn d hfetch hcall hd
  have hcaller : s.sp < d := Fin.lt_def.2 (by omega)
  have hstep : step s = .next ((s.setSp d).setPc (zext16 nnn)) := by
    rw [step_of_fetchable hfetch, hcall, exec_call_of_depth hd]
  refine ⟨_, hstep, rfl, fun m habove hm hfetch' hret => ?_⟩
  have hbelow (k : Fin 16) (hk : k < d) : m.entry k = s.entry k :=
    (habove.entry_eq hk).trans (step_entry_of_ne hstep (ne_of_lt hk))
  have hstep' : step m = .next ((m.setSp s.sp).setPc (m.entry s.sp + 2#16)) := by
    rw [step_of_fetchable hfetch', hret, exec_ret_of_depth (hm ▸ hd)]
  refine ⟨_, hstep', rfl, ?_, fun k hk => ?_, fun hnone => ?_⟩
  · rw [setPc_pc, hbelow s.sp hcaller, State.pc]
  · exact (step_entry_of_ne hstep' (ne_of_lt hk)).trans (hbelow k (lt_trans hk hcaller))
  · have hkept : ((m.setSp s.sp).setPc (m.entry s.sp + 2#16)).entry d = m.entry d :=
      step_entry_of_ne hstep' (ne_of_gt hcaller)
    have htop : m.entry d = m.pc := by rw [State.pc, hm]
    rw [hkept, htop, hnone, setPc_pc, toNat_zext16]

end Sys2Proof.Machine
end

section
/-! SUPPORT. Register load, arithmetic, logic, shift and random (spec/42_register_alu.md): each instruction as one or
two writes of registers and the advance of the pc, with the values and the frame such writes leave. -/

namespace Sys2Proof.Machine

/-! ### Writes of registers before the pc advances -/

theorem setReg_reg_self (s : State) (x : Reg) (b : Byte) : (s.setReg x b).reg x = b :=
  (setReg_reg s x x b).trans (if_pos rfl)

theorem setReg_reg_of_ne (s : State) {x r : Reg} (h : r ≠ x) (b : Byte) : (s.setReg x b).reg r = s.reg r :=
  (setReg_reg s x r b).trans (if_neg h)

/-- An instruction whose next state differs in one register and the pc: the register's value, the pc and the frame. -/
theorem exists_next_of_setReg {i : Instr} {s : State} {x : Reg} {b : Byte}
    (h : exec i s = .next ((s.setReg x b).setPc (s.pc + 2#16))) :
    ∃ t, exec i s = .next t ∧ t.reg x = b ∧ t.pc = s.pc + 2#16 ∧ Frame { regs := (· = x) } s t :=
  ⟨_, h, setReg_reg_self s x b, setPc_pc _ _,
    frame_then_setPc _ (fun _ hr => setReg_reg_of_ne s hr b) (fun _ => rfl) (fun _ _ => rfl) (fun _ => rfl)
      (fun _ => rfl) rfl rfl rfl⟩

/-- An instruction that writes register `x`, then register `z`: the later write stays, the earlier one where `x` is not
`z`; every register that is neither is as it was. -/
theorem exists_next_of_setReg_setReg {i : Instr} {s : State} {x z : Reg} {b c : Byte} {regs : Reg → Prop}
    (h : exec i s = .next (((s.setReg x b).setReg z c).setPc (s.pc + 2#16))) (hx : regs x) (hz : regs z) :
    ∃ t, exec i s = .next t ∧ t.reg z = c ∧ (x ≠ z → t.reg x = b) ∧ t.pc = s.pc + 2#16
      ∧ Frame { regs := regs } s t := by
  have hkept (r : Reg) (hr : ¬ regs r) : ((s.setReg x b).setReg z c).reg r = s.reg r := by
    have hrz : r ≠ z := fun heq => hr (heq ▸ hz)
    have hrx : r ≠ x := fun heq => hr (heq ▸ hx)
    rw [setReg_reg_of_ne _ hrz, setReg_reg_of_ne _ hrx]
  have hfirst (hne : x ≠ z) : ((s.setReg x b).setReg z c).reg x = b := by
    rw [setReg_reg_of_ne _ hne, setReg_reg_self]
  exact ⟨_, h, setReg_reg_self _ z c, hfirst, setPc_pc _ _,
    frame_then_setPc _ hkept (fun _ => rfl) (fun _ _ => rfl) (fun _ => rfl) (fun _ => rfl) rfl rfl rfl⟩

/-! ### Immediates and logic: one write -/

/-- Settles O23: each is one write, of kk or of the sum. -/
theorem immediateResult : Obligations.ImmediateResult := by
  unfold Obligations.ImmediateResult
  intro s x kk
  constructor
  · exact exists_next_of_setReg (i := .ldImm x kk) rfl
  · obtain ⟨t, hnext, hx, hpc, hframe⟩ := exists_next_of_setReg (i := .addImm x kk) (s := s) rfl
    exact ⟨t, hnext, by rw [hx, BitVec.toNat_add], hpc, hframe⟩

/-- Settles O24: each is one write. -/
theorem logicResult : Obligations.LogicResult := by
  unfold Obligations.LogicResult
  intro s x y
  exact ⟨exists_next_of_setReg (i := .orReg x y) rfl, exists_next_of_setReg (i := .andReg x y) rfl,
    exists_next_of_setReg (i := .xorReg x y) rfl⟩

/-! ### Sum and difference: the register, then the flag -/

/-- Settles O25: the sum is written, then its carry flag. -/
theorem addRegResult : Obligations.AddRegResult := by
  unfold Obligations.AddRegResult
  intro s x y
  obtain ⟨t, hnext, hflag, hsum, hpc, hframe⟩ :=
    exists_next_of_setReg_setReg (i := .addReg x y) (s := s) (regs := fun r => r = x ∨ r = 15) rfl (.inl rfl) (.inr rfl)
  refine ⟨t, hnext, ?_, fun hx => ?_, hpc, hframe⟩
  · rw [hflag, carryFlag_add]
  · rw [hsum hx, BitVec.toNat_add]

/-- The difference of two bytes, without a negative number. -/
theorem toNat_byte_sub (a b : Byte) : (a - b).toNat = (a.toNat + 256 - b.toNat) % 256 := by
  rw [BitVec.toNat_sub]
  omega

/-- Settles O26: the difference is written, then its borrow flag. -/
theorem subRegResult : Obligations.SubRegResult := by
  unfold Obligations.SubRegResult
  intro s x y
  obtain ⟨t, hnext, hflag, hdiff, hpc, hframe⟩ :=
    exists_next_of_setReg_setReg (i := .subReg x y) (s := s) (regs := fun r => r = x ∨ r = 15) rfl (.inl rfl) (.inr rfl)
  refine ⟨t, hnext, ?_, fun hx => ?_, hpc, hframe⟩
  · rw [hflag, borrowFlag_sub]
  · rw [hdiff hx, toNat_byte_sub]

/-! ### Shifts: the flag, then the register from Vy read again -/

theorem toNat_byte_shiftRight_one (b : Byte) : (b >>> 1).toNat = b.toNat / 2 := by
  rw [BitVec.toNat_ushiftRight, Nat.shiftRight_one]

theorem toNat_byte_shiftLeft_one (b : Byte) : (b <<< 1).toNat = 2 * b.toNat % 256 := by
  rw [BitVec.toNat_shiftLeft, Nat.shiftLeft_eq, pow_one, mul_comm]

/-- Shifted right, SHR's flag is lost. -/
theorem shrFlag_shiftRight_one (b : Byte) : shrFlag b >>> 1 = 0#8 :=
  BitVec.eq_of_toNat_eq (by rw [toNat_byte_shiftRight_one, toNat_shrFlag, BitVec.toNat_ofNat]; omega)

/-- Shifted left, SHL's flag is still a byte. -/
theorem toNat_shlFlag_shiftLeft_one (b : Byte) : (shlFlag b <<< 1).toNat = 2 * (b.toNat / 128) := by
  rw [toNat_byte_shiftLeft_one, toNat_shlFlag]
  omega

/-- A shift writes the flag first and reads Vy after it, so what it shifts is the flag where Vy is VF. -/
theorem exists_next_of_shift {i : Instr} {s : State} {x y : Reg} {flag : Byte} (shift : Byte → Byte)
    (h : exec i s = .next (((s.setReg 15 flag).setReg x (shift ((s.setReg 15 flag).reg y))).setPc (s.pc + 2#16))) :
    ∃ t, exec i s = .next t ∧ (x ≠ 15 → t.reg 15 = flag) ∧ (y ≠ 15 → t.reg x = shift (s.reg y))
      ∧ (y = 15 → t.reg x = shift flag) ∧ t.pc = s.pc + 2#16 ∧ Frame { regs := fun r => r = x ∨ r = 15 } s t := by
  obtain ⟨t, hnext, hshifted, hflag, hpc, hframe⟩ :=
    exists_next_of_setReg_setReg (regs := fun r => r = x ∨ r = 15) h (.inr rfl) (.inl rfl)
  refine ⟨t, hnext, fun hx => hflag hx.symm, fun hy => ?_, fun hy => ?_, hpc, hframe⟩
  · rw [hshifted, setReg_reg_of_ne s hy]
  · rw [hshifted, hy, setReg_reg_self]

/-- Settles O27: the shifted value by whether Vy is VF, which holds the flag by then. -/
theorem shrResult : Obligations.ShrResult := by
  unfold Obligations.ShrResult
  intro s x y
  obtain ⟨t, hnext, hflag, hother, hself, hpc, hframe⟩ :=
    exists_next_of_shift (i := .shrReg x y) (s := s) (· >>> 1) rfl
  refine ⟨t, hnext, fun hx => ?_, fun hy => ?_, fun hy => ?_, hpc, hframe⟩
  · rw [hflag hx, toNat_shrFlag]
  · rw [hother hy, toNat_byte_shiftRight_one]
  · rw [hself hy, shrFlag_shiftRight_one]

/-- Settles O28: the shifted value by whether Vy is VF, which holds the flag by then. -/
theorem shlResult : Obligations.ShlResult := by
  unfold Obligations.ShlResult
  intro s x y
  obtain ⟨t, hnext, hflag, hother, hself, hpc, hframe⟩ :=
    exists_next_of_shift (i := .shlReg x y) (s := s) (· <<< 1) rfl
  refine ⟨t, hnext, fun hx => ?_, fun hy => ?_, fun hy => ?_, hpc, hframe⟩
  · rw [hflag hx, toNat_shlFlag]
  · rw [hother hy, toNat_byte_shiftLeft_one]
  · rw [hself hy, toNat_shlFlag_shiftLeft_one]

/-! ### Random: a draw, then one write -/

theorem masked_and_not_mask (b kk : Byte) : b &&& kk &&& ~~~kk = 0#8 := by
  rw [BitVec.and_assoc, BitVec.and_not_self]
  exact BitVec.and_zero

/-- Settles O29: the drawn byte is masked, and a masked byte has no bit outside the mask. -/
theorem rndResult : Obligations.RndResult := by
  unfold Obligations.RndResult
  intro s x kk
  have hmasked : ((s.drawn.setReg x (s.drawByte &&& kk)).setPc (s.pc + 2#16)).reg x = s.drawByte &&& kk :=
    setReg_reg_self _ _ _
  refine ⟨_, rfl, hmasked, ?_, rfl, setPc_pc _ _, ?_⟩
  · exact (congrArg (· &&& ~~~kk) hmasked).trans (masked_and_not_mask _ kk)
  · exact frame_then_setPc _ (fun _ hr => setReg_reg_of_ne _ hr _) (fun _ => rfl) (fun _ _ => rfl) (fun _ => rfl)
      (fun hd => absurd trivial hd) rfl rfl rfl

end Sys2Proof.Machine
end

section
/-! SUPPORT. Index register and memory (spec/43_index_memory.md): a write of I, a store of bytes at I and a load of the
first registers, each with the values and the frame it leaves, and who writes I (R156). -/

namespace Sys2Proof.Machine

/-! ### Writes of I -/

/-- An instruction whose next state differs in I and the pc: their values and the frame. -/
theorem exists_next_of_setI {i : Instr} {s : State} {v : Word}
    (h : exec i s = .next ((s.setI v).setPc (s.pc + 2#16))) :
    ∃ t, exec i s = .next t ∧ t.I = v ∧ t.pc = s.pc + 2#16 ∧ Frame { index := True } s t :=
  ⟨_, h, rfl, setPc_pc _ _,
    frame_then_setPc _ (fun _ _ => rfl) (fun hi => absurd trivial hi) (fun _ _ => rfl) (fun _ => rfl) (fun _ => rfl)
      rfl rfl rfl⟩

/-- Settles O30: each is one write of I, of nnn or of the whole register. -/
theorem indexLoadResult : Obligations.IndexLoadResult := by
  unfold Obligations.IndexLoadResult
  intro s nnn x
  constructor
  · obtain ⟨t, hnext, hI, hpc, hframe⟩ := exists_next_of_setI (i := .ldI nnn) (s := s) rfl
    exact ⟨t, hnext, by rw [hI, toNat_zext16], hpc, hframe⟩
  · obtain ⟨t, hnext, hI, hpc, hframe⟩ := exists_next_of_setI (i := .ldF x) (s := s) rfl
    exact ⟨t, hnext, by rw [hI, toNat_zextByte], hpc, hframe⟩

/-- Settles O31: one write of I, of the 16-bit sum. -/
theorem addIResult : Obligations.AddIResult := by
  unfold Obligations.AddIResult
  intro s x
  obtain ⟨t, hnext, hI, hpc, hframe⟩ := exists_next_of_setI (i := .addI x) (s := s) rfl
  exact ⟨t, hnext, by rw [hI, BitVec.toNat_add, toNat_zextByte], hpc, hframe⟩

/-- Settles O45: the effect of every other instruction keeps I. -/
theorem indexWriters : Obligations.IndexWriters := by
  unfold Obligations.IndexWriters
  intro i s t h hI
  obtain ⟨-, rfl⟩ := exec_next_iff.1 h
  rw [after_I] at hI
  cases i with
  | ldI nnn => exact .inl ⟨nnn, rfl⟩
  | addI x => exact .inr (.inl ⟨x, rfl⟩)
  | ldF x => exact .inr (.inr ⟨x, rfl⟩)
  | _ => exact absurd rfl hI

/-! ### Stores at I -/

/-- Where a store of bytes at I does not run off, each of its bytes is read back, in a canonical memory. -/
theorem read_stored {s : State} {bytes : List Byte} {k : Nat} (hm : s.mem.wf) (hin : ¬ s.RunsOff bytes.length)
    (hk : k < bytes.length) : (s.mem.writeBytes s.I.toNat bytes).read (s.I.toNat + k) = bytes[k] :=
  Memory.read_writeBytes hm ((length_le_of_not_runsOff hin).resolve_left (List.ne_nil_of_length_pos (by omega))) hk

/-- An instruction whose next state has `c` bytes stored at I and the pc advanced: the bytes, the pc and the frame. -/
theorem exists_next_of_store {i : Instr} {s : State} {bytes : List Byte} {c : Nat} (hlen : bytes.length = c)
    (hm : s.mem.wf) (hin : ¬ s.RunsOff c)
    (h : exec i s = .next ((s.setMem (s.mem.writeBytes s.I.toNat bytes)).setPc (s.pc + 2#16))) :
    ∃ t, exec i s = .next t ∧ (∀ k (hk : k < bytes.length), t.mem.read (s.I.toNat + k) = bytes[k])
      ∧ t.pc = s.pc + 2#16 ∧ Frame { mem := fun a => s.I.toNat ≤ a ∧ a < s.I.toNat + c } s t := by
  subst hlen
  exact ⟨_, h, fun k hk => read_stored hm hin hk, setPc_pc _ _,
    frame_then_setPc _ (fun _ _ => rfl) (fun _ => rfl) (fun _ ha => Memory.read_writeBytes_outside s.mem bytes ha)
      (fun _ => rfl) (fun _ => rfl) rfl rfl rfl⟩

/-- The three digits a BCD stores, as numbers. -/
theorem toNat_digits (v : Byte) :
    (v / 100#8).toNat = v.toNat / 100 ∧ (v / 10#8 % 10#8).toNat = v.toNat / 10 % 10
      ∧ (v % 10#8).toNat = v.toNat % 10 := by
  simpa only [decimalDigits, List.map_cons, List.map_nil, List.cons.injEq, and_true] using decimalDigits_toNat v

/-- Settles O32: the fault of its row of the table, or the store of the three digits. -/
theorem bcdResult : Obligations.BcdResult := by
  unfold Obligations.BcdResult
  intro s x
  refine ⟨fun hoff => exec_fault_iff.2 (if_pos hoff), fun hm hin => ?_⟩
  have hlen : (decimalDigits (s.reg x)).length = 3 := length_decimalDigits _
  obtain ⟨t, hnext, hread, hpc, hframe⟩ :=
    exists_next_of_store (i := .bcd x) hlen hm hin (exec_next_iff.2 ⟨if_neg hin, rfl⟩)
  obtain ⟨hhundreds, htens, hones⟩ := toNat_digits (s.reg x)
  exact ⟨t, hnext, (congrArg BitVec.toNat (hread 0 (by omega))).trans hhundreds,
    (congrArg BitVec.toNat (hread 1 (by omega))).trans htens,
    (congrArg BitVec.toNat (hread 2 (by omega))).trans hones, hpc, hframe⟩

/-- Settles O33: the fault of its row of the table, or the store of the first registers. -/
theorem stResult : Obligations.StResult := by
  unfold Obligations.StResult
  intro s x
  refine ⟨fun hoff => exec_fault_iff.2 (if_pos hoff), fun hm hin => ?_⟩
  obtain ⟨t, hnext, hread, hpc, hframe⟩ :=
    exists_next_of_store (i := .st x) (length_firstRegs s x) hm hin (exec_next_iff.2 ⟨if_neg hin, rfl⟩)
  refine ⟨t, hnext, fun r hr => ?_, hpc, hframe⟩
  have hr : r.val < (s.firstRegs x).length := by rwa [length_firstRegs]
  rw [hread r hr, getElem_firstRegs]

/-! ### Loads from I -/

/-- LDM's registers: those below the count take the byte at I plus their number, the others keep theirs. -/
theorem effect_ldm_reg (x : Count) (s : State) (r : Reg) :
    (effect (.ldm x) s).reg r = if r < x then s.mem.read (s.I.toNat + r) else s.reg r := by
  have hload : (effect (.ldm x) s).reg r = (loadRegs s.V 0 (s.mem.readBytes s.I.toNat x))[r.val] := rfl
  rw [hload, loadRegs_get _ _ _ _ r.isLt]
  by_cases hr : r < x
  · have hin : r.val < x.val := hr
    rw [if_pos hr, dif_pos ⟨Nat.zero_le _, by rw [Memory.length_readBytes]; omega⟩, Memory.getElem_readBytes,
      Nat.sub_zero]
  · have hout : ¬ r.val < x.val := hr
    rw [if_neg hr, dif_neg (by rw [Memory.length_readBytes]; omega)]
    rfl

/-- Settles O34: the fault of its row of the table, or the load of the registers below the count. -/
theorem ldmResult : Obligations.LdmResult := by
  unfold Obligations.LdmResult
  intro s x
  refine ⟨fun hoff => exec_fault_iff.2 (if_pos hoff), fun hin => ?_⟩
  have hloaded (r : Reg) (hr : r < x) : (effect (.ldm x) s).reg r = s.mem.read (s.I.toNat + r) :=
    (effect_ldm_reg x s r).trans (if_pos hr)
  have hkept (r : Reg) (hr : ¬ r < x) : (effect (.ldm x) s).reg r = s.reg r :=
    (effect_ldm_reg x s r).trans (if_neg hr)
  exact ⟨after (.ldm x) s, exec_next_iff.2 ⟨if_neg hin, rfl⟩, hloaded, after_pc _ _,
    frame_then_setPc _ hkept (fun _ => rfl) (fun _ _ => rfl) (fun _ => rfl) (fun _ => rfl) rfl rfl rfl⟩

end Sys2Proof.Machine
end

section
/-! SUPPORT. Display (spec/44_display.md): CLS and DRW each as one write of the frame buffer and the advance of the pc,
and what DRW does to a pixel, which two drawings of one sprite undo (R172). -/

namespace Sys2Proof.Machine

/-! ### Writes of the frame buffer -/

/-- An instruction whose next state differs in the frame buffer and the pc: their values and the frame. -/
theorem exists_next_of_setFb {i : Instr} {s : State} {fb : FrameBuffer}
    (h : exec i s = .next ((s.setFb fb).setPc (s.pc + 2#16))) :
    ∃ t, exec i s = .next t ∧ t.fb = fb ∧ t.pc = s.pc + 2#16 ∧ Frame { frameBuffer := True } s t :=
  ⟨_, h, rfl, setPc_pc _ _,
    frame_then_setPc _ (fun _ _ => rfl) (fun _ => rfl) (fun _ _ => rfl) (fun hfb => absurd trivial hfb) (fun _ => rfl)
      rfl rfl rfl⟩

/-- Settles O36: one write of the frame buffer, of the blank one. -/
theorem clsResult : Obligations.ClsResult := by
  unfold Obligations.ClsResult
  intro s
  obtain ⟨t, hnext, hfb, hpc, hframe⟩ := exists_next_of_setFb (i := .cls) (s := s) rfl
  exact ⟨t, hnext, fun row col => by rw [hfb, FrameBuffer.pixel_blank], hpc, hframe⟩

/-- Settles O37: the fault of its row of the table, or one write of the frame buffer, with the sprite drawn into it. -/
theorem drwResult : Obligations.DrwResult := by
  unfold Obligations.DrwResult
  intro s x y n
  refine ⟨fun hoff => exec_fault_iff.2 (if_pos hoff), fun hin => ?_⟩
  obtain ⟨t, hnext, hfb, hpc, hframe⟩ := exists_next_of_setFb (i := .drw x y n) (exec_next_iff.2 ⟨if_neg hin, rfl⟩)
  exact ⟨t, hnext, fun row col => by rw [hfb, pixel_drawn], hpc, hframe⟩

/-! ### Two drawings of one sprite (R172) -/

/-- A DRW that completes exclusive-ors its sprite bit into every pixel. -/
theorem pixel_of_exec_drw {s t : State} {x y : Reg} {n : Count} (h : exec (.drw x y n) s = .next t) (row : Fin 32)
    (col : Fin 64) : t.fb.pixel row col = (s.fb.pixel row col ^^ s.spriteBit x y n row col) := by
  obtain ⟨-, rfl⟩ := exec_next_iff.1 h
  exact pixel_drawn s x y n row col

/-- The sprite bits depend on the reduced origin, the height and the sprite's bytes alone. -/
theorem spriteBit_congr {s s' : State} {x y x' y' : Reg} {n : Count}
    (hx : (s'.reg x').toNat % 64 = (s.reg x).toNat % 64) (hy : (s'.reg y').toNat % 32 = (s.reg y).toNat % 32)
    (hbytes : ∀ k, k < n.val → s'.mem.read (s'.I.toNat + k) = s.mem.read (s.I.toNat + k)) (row col : Nat) :
    s'.spriteBit x' y' n row col = s.spriteBit x y n row col := by
  simp only [State.spriteBit, hx, hy]
  by_cases hrow : row - (s.reg y).toNat % 32 < n.val
  · rw [hbytes _ hrow]
  · have hout : ¬ ((s.reg x).toNat % 64 ≤ col ∧ col < (s.reg x).toNat % 64 + 8 ∧ (s.reg y).toNat % 32 ≤ row ∧
        row < (s.reg y).toNat % 32 + n.val) := by omega
    rw [decide_eq_false hout, Bool.false_and, Bool.false_and]

theorem xor_ne_self_iff {a b : Bool} : (a ^^ b) ≠ a ↔ b = true := by
  rw [← Bool.xor_iff_ne, Bool.xor_right_comm, Bool.xor_self, Bool.false_xor]

/-- Settles O38: both drawings have the same sprite bits, and a pixel is inverted exactly where its bit is set. -/
theorem drwSelfInverse : Obligations.DrwSelfInverse := by
  unfold Obligations.DrwSelfInverse
  intro s t s' t' x y x' y' n h h' hx hy hbytes
  have hbit (row col : Nat) : s'.spriteBit x' y' n row col = s.spriteBit x y n row col :=
    spriteBit_congr hx hy hbytes row col
  constructor
  · refine fun hfb => FrameBuffer.ext fun row col => ?_
    rw [pixel_of_exec_drw h', hfb, pixel_of_exec_drw h, hbit, Bool.xor_assoc, Bool.xor_self, Bool.xor_false]
  · intro row col
    rw [pixel_of_exec_drw h', pixel_of_exec_drw h, hbit, xor_ne_self_iff, xor_ne_self_iff]

end Sys2Proof.Machine
end

section
/-! SUPPORT. Faults (spec/60_exceptions.md): a step raises the fetch fault or the fault of the decoded instruction, and a
host that goes on stepping after a fault meets it again. -/

namespace Sys2Proof.Machine

/-- A step faults by the fetch check first, then by the row of the decoded instruction (R187). -/
theorem step_fault_iff {s : State} {f : Fault} :
    step s = .fault f ↔
      if s.pc.toNat + 1 < 1791 then
        faultOf (decodeWord (wordOfBytes (s.mem.read s.pc.toNat) (s.mem.read (s.pc.toNat + 1)))) s = some f
      else f = .fetchOutOfRange s.pc := by
  by_cases hpc : s.pc.toNat + 1 < 1791
  · rw [step_of_fetchable hpc, if_pos hpc, exec_fault_iff]
  · rw [step_of_unfetchable hpc, if_neg hpc, Host.Outcome.fault.injEq, eq_comm]

/-- Settles O39: `faultOf` is the fault of every instruction, and of every step whose fetch succeeds. -/
theorem faultsExactly : Obligations.FaultsExactly := by
  unfold Obligations.FaultsExactly
  exact ⟨fun _ _ _ => exec_fault_iff, fun _ _ => step_fault_iff⟩

/-! ### Sequences of host operations -/

@[simp] theorem hostRun_nil (s : State) : hostRun [] s = (s, []) := rfl

/-- The first operation is applied, the others run from the state it leaves. -/
theorem hostRun_cons (op : HostOp) (ops : List HostOp) (s : State) :
    hostRun (op :: ops) s =
      ((hostRun ops (hostApply op s).1).1, (hostApply op s).2 :: (hostRun ops (hostApply op s).1).2) := rfl

/-- An operation that keeps the state is answered alike however often it is repeated. -/
theorem hostRun_replicate_of_keeps {op : HostOp} {s : State} {reply : HostReply} (h : hostApply op s = (s, reply))
    (n : Nat) : hostRun (List.replicate n op) s = (s, List.replicate n reply) := by
  induction n with
  | zero => exact hostRun_nil s
  | succ n ih => rw [List.replicate_succ, hostRun_cons, h, ih, List.replicate_succ]

/-- Settles O41: a faulting step is an operation that keeps the state. -/
theorem faultRepeats : Obligations.FaultRepeats := by
  unfold Obligations.FaultRepeats
  exact fun _ _ n h => hostRun_replicate_of_keeps (hostApply_step_of_fault h) n

end Sys2Proof.Machine
end

section
/-! SUPPORT. Reset, boot and the host's runs (spec/70_reset_and_hazards.md): a run of host operations in two parts, what
every operation keeps (R215), Reset() at the end of a run (R210), and the NOPs of zeroed memory (R214). -/

namespace Sys2Proof.Machine

/-! ### Runs of host operations -/

/-- The last operation of a run is applied to the state the others leave. -/
theorem hostRun_concat (ops : List HostOp) (op : HostOp) (s : State) :
    hostRun (ops ++ [op]) s =
      ((hostApply op (hostRun ops s).1).1, (hostRun ops s).2 ++ [(hostApply op (hostRun ops s).1).2]) := by
  induction ops generalizing s with
  | nil => rfl
  | cons op' ops ih => rw [List.cons_append, hostRun_cons, hostRun_cons, ih, List.cons_append]

/-- What every single operation keeps, every run keeps. -/
theorem hostRun_keeps {P : State → Prop} (hop : ∀ op s, P s → P (hostApply op s).1) (ops : List HostOp) {s : State}
    (hs : P s) : P (hostRun ops s).1 := by
  induction ops generalizing s with
  | nil => exact hs
  | cons op ops ih => exact ih (hop op s hs)

/-! ### Reset at the end of a run -/

/-- Settles O51: the reset is applied last, and what it leaves depends on nothing but the draw position it finds. -/
theorem hostResetResult : Obligations.HostResetResult := by
  unfold Obligations.HostResetResult
  intro ops s
  rw [hostRun_concat, hostApply, State.hostReset]

/-! ### The invariant under every host operation -/

/-- Reset() gives a state with the invariant from any state: the draw position it keeps is no part of the invariant. -/
theorem hostReset_inv (s : State) : s.hostReset.Inv := resetInv

/-- An operation that may be refused keeps what its success keeps. -/
theorem orRefused_keeps {P : State → Prop} {s : State} {t : Option State} (hs : P s) (ht : ∀ u, t = some u → P u) :
    P (orRefused s t).1 := by
  cases t with
  | none => exact hs
  | some u => exact ht u rfl

theorem hostWriteWord_inv {s t : State} {p : Nat} {w : Word} (hinv : s.Inv) (h : s.hostWriteWord p w = some t) :
    t.Inv := by
  obtain ⟨hmem, hcallers, hpc⟩ := hinv
  obtain ⟨hslot, ht⟩ := Option.ite_none_right_eq_some.1 h
  obtain rfl := Option.some.inj ht
  exact ⟨Memory.wf_writeWord hmem hslot w, hcallers, hpc⟩

theorem hostSetKey_inv {s t : State} {k : Nat} {down : Bool} (hinv : s.Inv) (h : s.hostSetKey k down = some t) :
    t.Inv := by
  obtain ⟨hkey, ht⟩ := Option.dite_none_right_eq_some.1 h
  obtain rfl := Option.some.inj ht
  exact hinv

/-- A step as the host sees it keeps the invariant: its next state has it, and anything else keeps the state. -/
theorem hostStep_inv {s : State} (hinv : s.Inv) : s.hostStep.1.Inv := by
  unfold State.hostStep
  split
  next t hnext => exact stepKeepsInv s t hinv hnext
  next => exact hinv
  next => exact hinv

theorem hostApply_inv (op : HostOp) (s : State) (hinv : s.Inv) : (hostApply op s).1.Inv := by
  cases op with
  | reset => exact hostReset_inv s
  | writeWord p w => exact orRefused_keeps hinv fun _ h => hostWriteWord_inv hinv h
  | setKey k down => exact orRefused_keeps hinv fun _ h => hostSetKey_inv hinv h
  | readFrame => exact hinv
  | step => exact hostStep_inv hinv

/-- Settles O4: by induction on the operations, each of which keeps the invariant. -/
theorem hostKeepsInv : Obligations.HostKeepsInv := by
  unfold Obligations.HostKeepsInv
  exact fun ops _ hinv => hostRun_keeps hostApply_inv ops hinv

/-! ### Running through zeroed memory (R214) -/

theorem hostApply_step_of_next {s t : State} (h : step s = .next t) : hostApply .step s = (t, .ok) := by
  rw [hostApply, State.hostStep, h]

@[simp] theorem setPc_setPc (s : State) (p q : Word) : (s.setPc p).setPc q = s.setPc q := by
  simp [State.setPc]

/-- Two zero bytes are a word of the NOP space, so a step that fetches them advances the pc and does nothing else. -/
theorem step_of_zero_bytes {s : State} (hfetch : s.pc.toNat + 1 < 1791) (hhigh : s.mem.read s.pc.toNat = 0x00#8)
    (hlow : s.mem.read (s.pc.toNat + 1) = 0x00#8) : step s = .next (s.setPc (s.pc + 2#16)) := by
  have hnop : nopSpace (wordOfBytes 0x00#8 0x00#8) = true := by decide
  rw [step_of_fetchable hfetch, hhigh, hlow, decodeWord_nop hnop]
  exact exec_next_iff.2 ⟨rfl, rfl⟩

theorem toNat_pc_add_two_mul {p : Word} {k : Nat} (h : p.toNat + 2 * k ≤ 1791) :
    (p + BitVec.ofNat 16 (2 * k)).toNat = p.toNat + 2 * k := by
  rw [BitVec.toNat_add, BitVec.toNat_ofNat]
  omega

theorem pc_add_two_mul_succ (p : Word) (k : Nat) :
    p + BitVec.ofNat 16 (2 * k) + 2#16 = p + BitVec.ofNat 16 (2 * (k + 1)) := by
  rw [BitVec.add_assoc, ← BitVec.ofNat_add, Nat.mul_succ]

/-- While both bytes of every fetch exist, `k` steps through zeroed memory are `k` NOPs. -/
theorem hostRun_steps_of_zeroed {s : State} (hzero : ∀ a, s.pc.toNat ≤ a → a < 1791 → s.mem.read a = 0x00#8) {k : Nat}
    (hk : s.pc.toNat + 2 * k ≤ 1791) :
    hostRun (List.replicate k .step) s = (s.setPc (s.pc + BitVec.ofNat 16 (2 * k)), List.replicate k .ok) := by
  induction k with
  | zero => rw [Nat.mul_zero, BitVec.add_zero, setPc_self]; rfl
  | succ k ih =>
    have hpc := toNat_pc_add_two_mul (p := s.pc) (k := k) (by omega)
    have hstep : step (s.setPc (s.pc + BitVec.ofNat 16 (2 * k))) =
        .next (s.setPc (s.pc + BitVec.ofNat 16 (2 * (k + 1)))) := by
      rw [step_of_zero_bytes, setPc_setPc, setPc_pc, pc_add_two_mul_succ]
      all_goals rw [setPc_pc, hpc]
      · omega
      · exact hzero _ (by omega) (by omega)
      · exact hzero _ (by omega) (by omega)
    rw [List.replicate_succ', hostRun_concat, ih (by omega), hostApply_step_of_next hstep, List.replicate_succ']

/-- Settles O55: the NOPs, and at 1790 or 1791 the fetch fault, which keeps the state they leave. -/
theorem zeroedMemoryRun : Obligations.ZeroedMemoryRun := by
  unfold Obligations.ZeroedMemoryRun
  intro s hzero k hk
  have hrun := hostRun_steps_of_zeroed hzero hk
  refine ⟨hrun, fun hend => ?_⟩
  have hfault : step (s.setPc (s.pc + BitVec.ofNat 16 (2 * k))) =
      .fault (.fetchOutOfRange (s.pc + BitVec.ofNat 16 (2 * k))) := by
    rw [step_of_unfetchable, setPc_pc]
    rw [setPc_pc, toNat_pc_add_two_mul hk]
    omega
  rw [List.replicate_succ', hostRun_concat, hrun, hostApply_step_of_fault hfault]

/-- Settles O50: the reset memory is zeroed from the reset pc 0 on, and 895 NOPs end at 1790. -/
theorem unloadedRun : Obligations.UnloadedRun := by
  unfold Obligations.UnloadedRun
  have hpc : State.reset.pc = 0#16 := rfl
  have hrun (k : Nat) (hk : k ≤ 895) := zeroedMemoryRun State.reset (fun a _ _ => Memory.read_nil a) k
    (by rw [hpc, BitVec.toNat_ofNat]; omega)
  simp only [hpc, BitVec.zero_add] at hrun
  exact ⟨fun k hk => (hrun k hk).1, (hrun 895 le_rfl).2 (by decide)⟩

end Sys2Proof.Machine
end
